-- ==== Sys2Proof/Word.lean ====
section
/-! DEFINITION. The word types of the machine (spec/00_scope.md R3, section 6; spec/30_encoding.md R62). -/

namespace Sys2Proof

/-- A `u8`: a register, a byte of memory, a timer, the immediate `NN`. -/
abbrev Byte := BitVec 8

/-- A `u16`: the index register, the program counter, a stack entry, an instruction word. -/
abbrev Word := BitVec 16

/-- The 12-bit address operand `NNN`. -/
abbrev Addr := BitVec 12

/-- One of the four 4-bit nibbles of an instruction word. -/
abbrev Nibble := BitVec 4

/-- A register index 0x0 to 0xF (spec/10_state.md R10). -/
abbrev Reg := Fin 16

/-- A key index 0x0 to 0xF (spec/10_state.md R20). -/
abbrev Key := Fin 16

/-- A display cell index 0 to 2047 (spec/10_state.md R19). -/
abbrev Cell := Fin 2048

end Sys2Proof
end

