-- ==== Sys2Proof/Syntax.lean ====
section
/-! DEFINITION. The instructions: one constructor per row of spec/opcode_table.json, in the table's order
(spec/30_encoding.md R62 to R73). -/

namespace Sys2Proof

/-- `x` is the register of bits 8 to 11, `y` that of bits 4 to 7 (R62). `ign` is the low nibble of groups 5 and
9, which selects nothing (R69); the syntax keeps it so that no bit of a word is lost (log 11). -/
inductive Instr where
  /-- 00E0 `CLS`, clear screen -/
  | cls
  /-- 00EE `RET`, return -/
  | ret
  /-- 1NNN `JP NNN`, jump -/
  | jp (nnn : Addr)
  /-- 2NNN `CALL NNN`, call -/
  | call (nnn : Addr)
  /-- 3XNN `SE Vx, NN`, skip-if-equal -/
  | seImm (x : Reg) (nn : Byte)
  /-- 4XNN `SNE Vx, NN`, skip-if-not-equal -/
  | sneImm (x : Reg) (nn : Byte)
  /-- 5XY- `SE Vx, Vy`, skip-if-regs-equal -/
  | seReg (x y : Reg) (ign : Nibble)
  /-- 6XNN `LD Vx, NN`, load immediate -/
  | ldImm (x : Reg) (nn : Byte)
  /-- 7XNN `ADD Vx, NN`, add immediate -/
  | addImm (x : Reg) (nn : Byte)
  /-- 8XY0 `LD Vx, Vy`, register-to-register load -/
  | ldReg (x y : Reg)
  /-- 8XY1 `OR Vx, Vy` -/
  | orReg (x y : Reg)
  /-- 8XY2 `AND Vx, Vy` -/
  | andReg (x y : Reg)
  /-- 8XY3 `XOR Vx, Vy` -/
  | xorReg (x y : Reg)
  /-- 8XY4 `ADD Vx, Vy`, add registers -/
  | addReg (x y : Reg)
  /-- 8XY5 `SUB Vx, Vy`, subtract -/
  | subReg (x y : Reg)
  /-- 8XY6 `SHR Vx, Vy`, shift-right -/
  | shr (x y : Reg)
  /-- 8XY7 `SUBN Vx, Vy`, subtract-reverse -/
  | subn (x y : Reg)
  /-- 8XYE `SHL Vx, Vy`, shift-left -/
  | shl (x y : Reg)
  /-- 9XY- `SNE Vx, Vy`, skip-if-regs-not-equal -/
  | sneReg (x y : Reg) (ign : Nibble)
  /-- ANNN `LD I, NNN`, load index -/
  | ldI (nnn : Addr)
  /-- BNNN `JP V0, NNN`, jump-plus-register0 -/
  | jpV0 (nnn : Addr)
  /-- CXNN `RND Vx, NN`, random-and-mask -/
  | rnd (x : Reg) (nn : Byte)
  /-- DXYN `DRW Vx, Vy, N`, draw sprite of `n` rows -/
  | drw (x y : Reg) (n : Nat)
  /-- EX9E `SKP Vx`, skip-if-key-down -/
  | skp (x : Reg)
  /-- EXA1 `SKNP Vx`, skip-if-key-up -/
  | sknp (x : Reg)
  /-- FX07 `LD Vx, DT`, load-register-from-delay-timer -/
  | ldVxDt (x : Reg)
  /-- FX0A `LD Vx, K`, wait-for-key -/
  | ldVxK (x : Reg)
  /-- FX15 `LD DT, Vx`, set-delay-timer -/
  | ldDtVx (x : Reg)
  /-- FX18 `LD ST, Vx`, set-sound-timer -/
  | ldStVx (x : Reg)
  /-- FX1E `ADD I, Vx`, add-to-index -/
  | addI (x : Reg)
  /-- FX29 `LD F, Vx`, index-to-font-glyph -/
  | ldF (x : Reg)
  /-- FX33 `LD B, Vx`, store-digits -/
  | ldB (x : Reg)
  /-- FX55 `LD [I], Vx`, register-dump -/
  | dump (x : Reg)
  /-- FX65 `LD Vx, [I]`, register-load -/
  | load (x : Reg)
  deriving DecidableEq, Repr

/-- The row of spec/opcode_table.json an instruction belongs to, by its mnemonic there. -/
def Instr.mnemonic : Instr → String
  | .cls => "CLS"
  | .ret => "RET"
  | .jp _ => "JP_NNN"
  | .call _ => "CALL_NNN"
  | .seImm _ _ => "SE_Vx__NN"
  | .sneImm _ _ => "SNE_Vx__NN"
  | .seReg _ _ _ => "SE_Vx__Vy"
  | .ldImm _ _ => "LD_Vx__NN"
  | .addImm _ _ => "ADD_Vx__NN"
  | .ldReg _ _ => "LD_Vx__Vy"
  | .orReg _ _ => "OR_Vx__Vy"
  | .andReg _ _ => "AND_Vx__Vy"
  | .xorReg _ _ => "XOR_Vx__Vy"
  | .addReg _ _ => "ADD_Vx__Vy"
  | .subReg _ _ => "SUB_Vx__Vy"
  | .shr _ _ => "SHR_Vx__Vy"
  | .subn _ _ => "SUBN_Vx__Vy"
  | .shl _ _ => "SHL_Vx__Vy"
  | .sneReg _ _ _ => "SNE_Vx__Vy"
  | .ldI _ => "LD_I__NNN"
  | .jpV0 _ => "JP_V0__NNN"
  | .rnd _ _ => "RND_Vx__NN"
  | .drw _ _ _ => "DRW_Vx__Vy__N"
  | .skp _ => "SKP_Vx"
  | .sknp _ => "SKNP_Vx"
  | .ldVxDt _ => "LD_Vx__DT"
  | .ldVxK _ => "LD_Vx__K"
  | .ldDtVx _ => "LD_DT__Vx"
  | .ldStVx _ => "LD_ST__Vx"
  | .addI _ => "ADD_I__Vx"
  | .ldF _ => "LD_F__Vx"
  | .ldB _ => "LD_B__Vx"
  | .dump _ => "LD__I___Vx"
  | .load _ => "LD_Vx___I"

end Sys2Proof
end

