-- ==== Sys2Proof/WellFormed.lean ====
section
/-! DEFINITION. Which terms of `Instr` stand for an instruction word. Every operand but one is of a type that
admits exactly the values its field can hold; the row count of draw sprite is a number and its field has four
bits (spec/30_encoding.md R62, R63). -/

namespace Sys2Proof

/-- The row count of a draw sprite is 0 to 15 (R63; `N = 0` is an instruction, decision D11). -/
def Instr.wellFormed : Instr → Bool
  | .drw _ _ n => decide (n < 16)
  | _ => true

/-- An instruction some word encodes. -/
abbrev Instr.WellFormed (i : Instr) : Prop := i.wellFormed = true

end Sys2Proof
end

