-- ==== Sys2Proof/Decode.lean ====
section
/-! DEFINITION. The decoder and the encoder (spec/30_encoding.md; spec/40_step_cycle.md R83): the opcode map,
field extraction, decoding of a word and of bytes, and the word of an instruction. -/

namespace Sys2Proof

/-! ### Fields (R62) -/

/-- Nibble `k` of a word, nibble 0 the lowest: `G` is nibble 3, `X` 2, `Y` 1, `N` 0. -/
def nibble (w : Word) (k : Nat) : Nibble := w.extractLsb' (4 * k) 4

/-- The word with these four nibbles, the highest first. -/
def ofNibbles (g x y n : Nibble) : Word := g ++ x ++ y ++ n

/-- The register a nibble names. -/
def regOf (n : Nibble) : Reg := n.toFin

/-- The nibble that names a register. -/
def nibbleOf (x : Reg) : Nibble := BitVec.ofFin x

/-- `NN = Y ++ N`. -/
def imm8 (y n : Nibble) : Byte := y ++ n

/-- `NNN = X ++ Y ++ N`. -/
def addr12 (x y n : Nibble) : Addr := x ++ y ++ n

/-! ### The opcode map (R64 to R69, R73) -/

/-- A row of the map: the word `w` is this instruction exactly when `w &&& mask = pattern`. -/
structure OpcodeRow where
  mnemonic : String
  pattern  : Word
  mask     : Word
  deriving DecidableEq, Repr

/-- Rows 1 to 21 of the map of spec/30_encoding.md section 3. -/
def opcodeMapLow : List OpcodeRow := [
  ⟨"CLS", 0x00E0, 0xFFFF⟩,
  ⟨"RET", 0x00EE, 0xFFFF⟩,
  ⟨"JP_NNN", 0x1000, 0xF000⟩,
  ⟨"CALL_NNN", 0x2000, 0xF000⟩,
  ⟨"SE_Vx__NN", 0x3000, 0xF000⟩,
  ⟨"SNE_Vx__NN", 0x4000, 0xF000⟩,
  ⟨"SE_Vx__Vy", 0x5000, 0xF000⟩,
  ⟨"LD_Vx__NN", 0x6000, 0xF000⟩,
  ⟨"ADD_Vx__NN", 0x7000, 0xF000⟩,
  ⟨"LD_Vx__Vy", 0x8000, 0xF00F⟩,
  ⟨"OR_Vx__Vy", 0x8001, 0xF00F⟩,
  ⟨"AND_Vx__Vy", 0x8002, 0xF00F⟩,
  ⟨"XOR_Vx__Vy", 0x8003, 0xF00F⟩,
  ⟨"ADD_Vx__Vy", 0x8004, 0xF00F⟩,
  ⟨"SUB_Vx__Vy", 0x8005, 0xF00F⟩,
  ⟨"SHR_Vx__Vy", 0x8006, 0xF00F⟩,
  ⟨"SUBN_Vx__Vy", 0x8007, 0xF00F⟩,
  ⟨"SHL_Vx__Vy", 0x800E, 0xF00F⟩,
  ⟨"SNE_Vx__Vy", 0x9000, 0xF000⟩,
  ⟨"LD_I__NNN", 0xA000, 0xF000⟩,
  ⟨"JP_V0__NNN", 0xB000, 0xF000⟩]

/-- Rows 22 to 34 of the map of spec/30_encoding.md section 3. -/
def opcodeMapHigh : List OpcodeRow := [
  ⟨"RND_Vx__NN", 0xC000, 0xF000⟩,
  ⟨"DRW_Vx__Vy__N", 0xD000, 0xF000⟩,
  ⟨"SKP_Vx", 0xE09E, 0xF0FF⟩,
  ⟨"SKNP_Vx", 0xE0A1, 0xF0FF⟩,
  ⟨"LD_Vx__DT", 0xF007, 0xF0FF⟩,
  ⟨"LD_Vx__K", 0xF00A, 0xF0FF⟩,
  ⟨"LD_DT__Vx", 0xF015, 0xF0FF⟩,
  ⟨"LD_ST__Vx", 0xF018, 0xF0FF⟩,
  ⟨"ADD_I__Vx", 0xF01E, 0xF0FF⟩,
  ⟨"LD_F__Vx", 0xF029, 0xF0FF⟩,
  ⟨"LD_B__Vx", 0xF033, 0xF0FF⟩,
  ⟨"LD__I___Vx", 0xF055, 0xF0FF⟩,
  ⟨"LD_Vx___I", 0xF065, 0xF0FF⟩]

/-- The opcode map: the specification of the decoder below, stated apart from it (R64, R73). -/
def opcodeMap : List OpcodeRow := opcodeMapLow ++ opcodeMapHigh

/-- The word matches the row. -/
def OpcodeRow.admits (r : OpcodeRow) (w : Word) : Bool := w &&& r.mask == r.pattern

/-! ### Decoding -/

/-- Why bytes are no instruction. Unrecognized words exist in groups 0, 8, E and F only (R70); `step` meets them
with the reported no-op of R85. `truncated` is for a byte list of fewer than two bytes, which `step` never
presents. -/
inductive Reject where
  | unrecognizedGroup0 (w : Word)
  | unrecognizedGroup8 (w : Word)
  | unrecognizedGroupE (w : Word)
  | unrecognizedGroupF (w : Word)
  | truncated
  deriving DecidableEq, Repr

/-- Group 0 is selected by the full word (R65). -/
def decodeGroup0 (x y n : Nibble) : Except Reject Instr :=
  match x, y, n with
  | 0x0#4, 0xE#4, 0x0#4 => .ok .cls
  | 0x0#4, 0xE#4, 0xE#4 => .ok .ret
  | _, _, _ => .error (.unrecognizedGroup0 (ofNibbles 0x0 x y n))

/-- Group 8 is selected by the low nibble (R66). -/
def decodeGroup8 (x y n : Nibble) : Except Reject Instr :=
  match n with
  | 0x0#4 => .ok (.ldReg (regOf x) (regOf y))
  | 0x1#4 => .ok (.orReg (regOf x) (regOf y))
  | 0x2#4 => .ok (.andReg (regOf x) (regOf y))
  | 0x3#4 => .ok (.xorReg (regOf x) (regOf y))
  | 0x4#4 => .ok (.addReg (regOf x) (regOf y))
  | 0x5#4 => .ok (.subReg (regOf x) (regOf y))
  | 0x6#4 => .ok (.shr (regOf x) (regOf y))
  | 0x7#4 => .ok (.subn (regOf x) (regOf y))
  | 0xE#4 => .ok (.shl (regOf x) (regOf y))
  | _ => .error (.unrecognizedGroup8 (ofNibbles 0x8 x y n))

/-- Group E is selected by the low byte (R67). -/
def decodeGroupE (x y n : Nibble) : Except Reject Instr :=
  match y, n with
  | 0x9#4, 0xE#4 => .ok (.skp (regOf x))
  | 0xA#4, 0x1#4 => .ok (.sknp (regOf x))
  | _, _ => .error (.unrecognizedGroupE (ofNibbles 0xE x y n))

/-- Group F is selected by the low byte (R68). -/
def decodeGroupF (x y n : Nibble) : Except Reject Instr :=
  match y, n with
  | 0x0#4, 0x7#4 => .ok (.ldVxDt (regOf x))
  | 0x0#4, 0xA#4 => .ok (.ldVxK (regOf x))
  | 0x1#4, 0x5#4 => .ok (.ldDtVx (regOf x))
  | 0x1#4, 0x8#4 => .ok (.ldStVx (regOf x))
  | 0x1#4, 0xE#4 => .ok (.addI (regOf x))
  | 0x2#4, 0x9#4 => .ok (.ldF (regOf x))
  | 0x3#4, 0x3#4 => .ok (.ldB (regOf x))
  | 0x5#4, 0x5#4 => .ok (.dump (regOf x))
  | 0x6#4, 0x5#4 => .ok (.load (regOf x))
  | _, _ => .error (.unrecognizedGroupF (ofNibbles 0xF x y n))

/-- The top nibble selects the primary group (R64); groups 5 and 9 have no selector (R69). -/
def decodeNibbles (g x y n : Nibble) : Except Reject Instr :=
  match g with
  | 0x0#4 => decodeGroup0 x y n
  | 0x1#4 => .ok (.jp (addr12 x y n))
  | 0x2#4 => .ok (.call (addr12 x y n))
  | 0x3#4 => .ok (.seImm (regOf x) (imm8 y n))
  | 0x4#4 => .ok (.sneImm (regOf x) (imm8 y n))
  | 0x5#4 => .ok (.seReg (regOf x) (regOf y) n)
  | 0x6#4 => .ok (.ldImm (regOf x) (imm8 y n))
  | 0x7#4 => .ok (.addImm (regOf x) (imm8 y n))
  | 0x8#4 => decodeGroup8 x y n
  | 0x9#4 => .ok (.sneReg (regOf x) (regOf y) n)
  | 0xA#4 => .ok (.ldI (addr12 x y n))
  | 0xB#4 => .ok (.jpV0 (addr12 x y n))
  | 0xC#4 => .ok (.rnd (regOf x) (imm8 y n))
  | 0xD#4 => .ok (.drw (regOf x) (regOf y) n.toNat)
  | 0xE#4 => decodeGroupE x y n
  | _ => decodeGroupF x y n

/-- Decode is a pure function of the word (R83). -/
def decodeWord (w : Word) : Except Reject Instr :=
  decodeNibbles (nibble w 3) (nibble w 2) (nibble w 1) (nibble w 0)

/-- Two bytes form a word, the high byte first (spec/20_memory.md R42). -/
def wordOfBytes (hi lo : Byte) : Word := hi ++ lo

/-- The first instruction of a list of bytes, and the bytes after it (R60: one length, two bytes). -/
def decodeBytes : List Byte → Except Reject (Instr × List Byte)
  | hi :: lo :: rest =>
    match decodeWord (wordOfBytes hi lo) with
    | .ok i => .ok (i, rest)
    | .error r => .error r
  | _ => .error .truncated

/-! ### Encoding -/

/-- A word of the ADDR format. -/
def encodeAddr (g : Nibble) (nnn : Addr) : Word := g ++ nnn

/-- A word of the REG_IMM and REG_SEL formats. -/
def encodeRegByte (g : Nibble) (x : Reg) (nn : Byte) : Word := g ++ nibbleOf x ++ nn

/-- A word of the REG_REG and REG_REG_N formats. -/
def encodeRegReg (g : Nibble) (x y : Reg) (n : Nibble) : Word := g ++ nibbleOf x ++ nibbleOf y ++ n

/-- The word of an instruction, from the encoding column of the opcode map. -/
def encode : Instr → Word
  | .cls => 0x00E0
  | .ret => 0x00EE
  | .jp nnn => encodeAddr 0x1 nnn
  | .call nnn => encodeAddr 0x2 nnn
  | .seImm x nn => encodeRegByte 0x3 x nn
  | .sneImm x nn => encodeRegByte 0x4 x nn
  | .seReg x y ign => encodeRegReg 0x5 x y ign
  | .ldImm x nn => encodeRegByte 0x6 x nn
  | .addImm x nn => encodeRegByte 0x7 x nn
  | .ldReg x y => encodeRegReg 0x8 x y 0x0
  | .orReg x y => encodeRegReg 0x8 x y 0x1
  | .andReg x y => encodeRegReg 0x8 x y 0x2
  | .xorReg x y => encodeRegReg 0x8 x y 0x3
  | .addReg x y => encodeRegReg 0x8 x y 0x4
  | .subReg x y => encodeRegReg 0x8 x y 0x5
  | .shr x y => encodeRegReg 0x8 x y 0x6
  | .subn x y => encodeRegReg 0x8 x y 0x7
  | .shl x y => encodeRegReg 0x8 x y 0xE
  | .sneReg x y ign => encodeRegReg 0x9 x y ign
  | .ldI nnn => encodeAddr 0xA nnn
  | .jpV0 nnn => encodeAddr 0xB nnn
  | .rnd x nn => encodeRegByte 0xC x nn
  | .drw x y n => encodeRegReg 0xD x y (BitVec.ofNat 4 n)
  | .skp x => encodeRegByte 0xE x 0x9E
  | .sknp x => encodeRegByte 0xE x 0xA1
  | .ldVxDt x => encodeRegByte 0xF x 0x07
  | .ldVxK x => encodeRegByte 0xF x 0x0A
  | .ldDtVx x => encodeRegByte 0xF x 0x15
  | .ldStVx x => encodeRegByte 0xF x 0x18
  | .addI x => encodeRegByte 0xF x 0x1E
  | .ldF x => encodeRegByte 0xF x 0x29
  | .ldB x => encodeRegByte 0xF x 0x33
  | .dump x => encodeRegByte 0xF x 0x55
  | .load x => encodeRegByte 0xF x 0x65

/-- The two bytes of a word as they lie in memory, the high byte first (R42). -/
def bytesOfWord (w : Word) : List Byte := [w.extractLsb' 8 8, w.extractLsb' 0 8]

/-! ### The opcode table's numbering -/

/-- The word whose bits the table's numbering gives: an instruction is one word of 16 bits (R60), so bits above
`nbits`, and above 15, are 0. -/
def tableWord (nbits w : Nat) : Word := BitVec.ofNat 16 (w % 2 ^ nbits)

/-- What the decoder reads from an instruction of `nbits` bits whose bits are `w`, laid out in memory order. -/
def decodeTableWord (nbits w : Nat) : Option Instr :=
  match decodeBytes (bytesOfWord (tableWord nbits w)) with
  | .ok (i, _) => some i
  | .error _ => none

end Sys2Proof
end

