-- ==== Sys2Proof/Config.lean ====
section
/-! DEFINITION. What an implementation fixes: the policies of spec/00_scope.md R4 and section 5, the open
parameters, and the free values. An `opaque` constant has no body, so no proof can know its value. -/

namespace Sys2Proof

/-- TICK_MODE: the timer tick ends every step, or is an event of the host (R4, R87, R89). -/
inductive TickMode where
  | perStep
  | external
  deriving DecidableEq, Repr

/-- SOUND_TIMER_POLICY: what a tick does to a non-zero sound timer (R4, R88). -/
inductive SoundPolicy where
  | forceZero
  | decrement
  deriving DecidableEq, Repr

/-- RAND_MASK_SOURCE: what the random byte is masked with (R4, R178). -/
inductive MaskSource where
  | immediate
  | fixed
  deriving DecidableEq, Repr

/-- The policies of the machine, constant in every run (log 2). FETCH_LIMIT is at most 4095, so a fetch
below it lies inside the 4096 bytes (R47, R82, C2). -/
structure Params where
  fetchLimit  : Fin 4096
  tickMode    : TickMode
  soundPolicy : SoundPolicy
  maskSource  : MaskSource
  deriving DecidableEq, Repr

/-- The defaults the spec takes (spec/00_scope.md section 5; decisions D4, D14, D15, D16). -/
def Params.default : Params where
  fetchLimit  := 4094
  tickMode    := .perStep
  soundPolicy := .forceZero
  maskSource  := .immediate

/-- FONT, open: the byte of the font table at address `a`, for `a` from 0 to 79 (D17, N5; log 3). -/
opaque Config.font : Nat → Byte

/-- RAND_FIXED_MASK, open: used only when RAND_MASK_SOURCE is FIXED (D16, N6; log 4). -/
opaque Config.randFixedMask : Byte

/-- The pseudo-random byte of the `n`-th draw: a free value (R24, R178, D16; log 5). -/
opaque Config.freeByte : Nat → Byte

/-- The free choice of wait-for-key when several keys are down, at the `n`-th draw (R174, D13; log 6). -/
opaque Config.freePick : Nat → Nat

/-- MEM_SIZE. -/
def memSize : Nat := 4096

/-- FONT_SIZE, at FONT_BASE = 0. -/
def fontSize : Nat := 80

/-- GLYPH_SIZE. -/
def glyphSize : Nat := 5

/-- ENTRY: where a ROM is loaded and execution begins. -/
def entry : Nat := 0x200

/-- STACK_DEPTH. -/
def stackDepth : Nat := 16

/-- FLAG_REG. -/
def flagReg : Reg := 15

end Sys2Proof
end

