-- ==== Sys2Proof/Machine/State.lean ====
section
/-! DEFINITION. The state of the machine (spec/10_state.md), the conditions of spec/60_exceptions.md R200, and
the state after reset. -/

namespace Sys2Proof.Machine

/-- The violations of R200, with the information each records: `pc` of the instruction, its word `w`, and the
address or key index at fault. A violation is no host fault: raising it is a NEXT state with the latch set
(R203; log 1). -/
inductive Violation where
  /-- code 2: CALL with `sp = 16` (R101) -/
  | stackOverflow (pc w : Word)
  /-- code 3: RET with `sp = 0` (R103) -/
  | stackUnderflow (pc w : Word)
  /-- code 4: a step that starts with `pc >= FETCH_LIMIT` (R82) -/
  | fetchOutOfBounds (pc : Word)
  /-- code 5: the highest address `addr` of a data access is above 4095 (R46) -/
  | dataOutOfBounds (addr : Nat) (pc w : Word)
  /-- code 6: a key skip with a register value `k` above 15 (R172) -/
  | keyIndexOutOfRange (k : Byte) (pc w : Word)
  deriving DecidableEq, Repr

/-- The conditions of R200: what a step or a load signals to the host. -/
inductive Condition where
  /-- code 1: reported, the step completes (R85, R201) -/
  | unrecognizedInstruction (pc w : Word)
  /-- codes 2 to 6 (R203) -/
  | violation (v : Violation)
  /-- code 7: a ROM too large (R236) -/
  | capacityExceeded (length : Nat)
  /-- code 8: no bytes to load (R237) -/
  | ioUnavailable
  deriving DecidableEq, Repr

/-- The trace record of a step: `pc`, `sp` and the registers at its start, and the word fetched, none when the
fetch was out of bounds (R91). -/
structure TraceRecord where
  pc   : Word
  word : Option Word
  sp   : Fin 17
  regs : Vector Byte 16
  deriving DecidableEq, Repr

/-- Memory: the cells whose content differs from the reset contents, addresses rising. -/
abbrev Memory := List Host.Cell

/-- The display buffer: 32 rows of 64 one-bit cells. Cell `c` of R19 is bit `c mod 64` of row `c div 64`. -/
abbrev Display := Vector (BitVec 64) 32

/-- The machine's state (spec/10_state.md section 1). The last four fields are the model's own: the policies
(log 2), the count of free values used (logs 5, 6), and the two outputs the host reads (R26, R91; log 7). -/
structure State where
  /-- `V[0..15]`; `V[0xF]` is the flag register (R10, R12) -/
  v : Vector Byte 16
  /-- `I` (R16) -/
  i : Word
  /-- `pc` (R14) -/
  pc : Word
  /-- `stack[0..15]` (R17) -/
  stack : Vector Word 16
  /-- `sp`, the number of active entries, 0 to 16 (R17) -/
  sp : Fin 17
  /-- `mem[0..4095]` (R18, R40) -/
  mem : Memory
  /-- `DT` (R22) -/
  dt : Byte
  /-- `ST` (R22) -/
  st : Byte
  /-- `disp[0..2047]` (R19) -/
  disp : Display
  /-- `key[0..15]`, true when down (R20) -/
  key : Vector Bool 16
  /-- `redraw` (R23) -/
  redraw : Bool
  /-- `fault` (R25) -/
  fault : Option Violation
  /-- FETCH_LIMIT, TICK_MODE, SOUND_TIMER_POLICY, RAND_MASK_SOURCE (R3, R4) -/
  params : Params
  /-- how many free values have been used -/
  draws : Nat
  /-- the condition the latest step or load signalled -/
  report : Option Condition
  /-- the trace record of the latest step -/
  trace : Option TraceRecord
  deriving DecidableEq, Repr

/-- Host faults: NONE. The spec describes what every step does, a violation included (R203: the latch is set and
the machine is frozen until reset), so no step of this model stops with a host fault (logs 1, 19). -/
inductive Fault
  deriving DecidableEq, Repr

/-- Refusals. -/
inductive Refusal where
  /-- An instruction without a meaning, rejected by name in exec's arm. Safe. No arm of this model raises it. -/
  | notModelled (mnemonic : String)
  deriving DecidableEq, Repr

/-- The machine right after reset (R30, R230): everything zero but `pc`, memory at the reset contents (nothing
listed: the font table at 0 to 79, zero elsewhere). -/
def State.reset : State where
  v      := Vector.replicate 16 0
  i      := 0
  pc     := 0x200
  stack  := Vector.replicate 16 0
  sp     := 0
  mem    := []
  dt     := 0
  st     := 0
  disp   := Vector.replicate 32 0
  key    := Vector.replicate 16 false
  redraw := false
  fault  := none
  params := Params.default
  draws  := 0
  report := none
  trace  := none

end Sys2Proof.Machine
end

