-- ==== Sys2Proof/Machine/Ops.lean ====
section
/-! DEFINITION. The named operations over registers, the program counter, the stack, memory, the display and
the timers; raising a violation (the machine's one kind of exception entry; there is no return from it but reset,
spec/60_exceptions.md R208, R209); fetch, the timer tick and the end of a step (spec/40_step_cycle.md). -/

namespace Sys2Proof.Machine

/-- What a meaning answers. -/
abbrev Result := Host.Outcome State Fault Refusal

/-! ### Registers and flag (R10, R12) -/

/-- Read `V[x]`. -/
def State.reg (s : State) (x : Reg) : Byte := s.v[x.val]

/-- `V[x] <- b`. -/
def State.setReg (s : State) (x : Reg) (b : Byte) : State := { s with v := s.v.set x.val b }

/-- The flag value written to all 8 bits: 0x01 or 0x00 (R12). -/
def flagByte (f : Bool) : Byte := if f then 1 else 0

/-- `V[0xF] <- 1` or `V[0xF] <- 0`. -/
def State.setFlag (s : State) (f : Bool) : State := s.setReg flagReg (flagByte f)

/-- `I <- a`. -/
def State.setI (s : State) (a : Word) : State := { s with i := a }

/-! ### The program counter (R15, R86) -/

/-- `pc <- a`. -/
def State.setPc (s : State) (a : Word) : State := { s with pc := a }

/-- `pc <- pc + 2`, the default advance. -/
def State.advance (s : State) : State := s.setPc (s.pc + 2)

/-- The step's own effect is done and the pc takes the default advance. -/
def complete (s : State) : Result := .next s.advance

/-- A skip: `pc + 4` when the condition holds, else `pc + 2`; it writes nothing but the pc (R102). -/
def skipIf (c : Bool) (s : State) : Result := .next (s.setPc (if c then s.pc + 4 else s.pc + 2))

/-! ### Violations (R90, R203) -/

/-- `raise v`: the latch is set and no other state element changes, the pc included. `finishStep` reports the
condition and, seeing the latch, performs no tick. -/
def raise (v : Violation) (s : State) : Result := .next { s with fault := some v }

/-- The latch is set: every step does nothing until the host resets (R81). -/
def State.faulted (s : State) : Bool := s.fault.isSome

/-! ### The stack (R17, R101, R103) -/

/-- `stack[sp] <- a; sp <- sp + 1`, none when `sp = 16`. -/
def State.push (s : State) (a : Word) : Option State :=
  if h : s.sp.val < 16 then
    some { s with stack := s.stack.set s.sp.val a, sp := ⟨s.sp.val + 1, Nat.succ_lt_succ h⟩ }
  else none

/-- `sp <- sp - 1`, and the entry `stack[sp]` read after the decrement; none when `sp = 0`. The popped slot keeps
its value. -/
def State.pop (s : State) : Option (Word × State) :=
  if h : s.sp.val = 0 then none
  else
    have hs : s.sp.val - 1 < 16 := by have := s.sp.isLt; omega
    some (s.stack[s.sp.val - 1], { s with sp := ⟨s.sp.val - 1, Nat.lt_succ_of_lt hs⟩ })

/-! ### Memory (R40 to R46) -/

/-- The font table's byte at address `a` (FONT, open; log 3). -/
def fontByte (a : Nat) : Byte := Config.font a

/-- What an address that memory does not list reads as: the reset contents, the font table at 0 to 79 and zero
elsewhere (R30, R41). -/
def unlisted (a : Nat) : Byte := if a < fontSize then fontByte a else 0

/-- The listed content of address `a`. -/
def Memory.find : Memory → Nat → Option Byte
  | [], _ => none
  | c :: m, a => if c.1 = a then some c.2 else Memory.find m a

/-- Read the byte at address `a`. -/
def Memory.read (m : Memory) (a : Nat) : Byte := (Memory.find m a).getD (unlisted a)

/-- List address `a` with content `b` before `m`, unless unlisted it reads as `b` already. -/
def Memory.cons (a : Nat) (b : Byte) (m : Memory) : Memory := if b = unlisted a then m else (a, b) :: m

/-- Write one cell, keeping the canonical form. -/
def Memory.insert : Memory → Nat → Byte → Memory
  | [], a, b => Memory.cons a b []
  | c :: m, a, b =>
    if a < c.1 then Memory.cons a b (c :: m)
    else if a = c.1 then Memory.cons a b m
    else c :: Memory.insert m a b

/-- Write the byte at address `a`. Above 4095 there is no cell and nothing is written (no meaning gets there: the
whole range is checked first, R46; log 13). No address is protected (R48; log 25). -/
def Memory.write (m : Memory) (a : Nat) (b : Byte) : Memory := if a < memSize then Memory.insert m a b else m

/-- Write bytes at increasing addresses from `a`. -/
def Memory.writeAll : Memory → Nat → List Byte → Memory
  | m, _, [] => m
  | m, a, b :: bs => Memory.writeAll (Memory.write m a b) (a + 1) bs

/-- Every listed address of `m` is at least `lo`, below 4096, rising, and listed for a reason. -/
def Memory.wfFrom : Nat → Memory → Bool
  | _, [] => true
  | lo, c :: m => decide (lo ≤ c.1) && decide (c.1 < memSize) && c.2 != unlisted c.1 && Memory.wfFrom (c.1 + 1) m

/-- The canonical form: addresses strictly rising and inside the 4096 bytes, no entry equal to what its address
reads as unlisted. -/
def Memory.wf (m : Memory) : Bool := Memory.wfFrom 0 m

/-- `MemRead(a, 1)`. -/
def State.readByte (s : State) (a : Nat) : Byte := Memory.read s.mem a

/-- The `n` bytes at increasing addresses from `a`. -/
def State.readBytes (s : State) (a n : Nat) : List Byte := (List.range n).map fun k => s.readByte (a + k)

/-- `MemWrite` of each byte at increasing addresses from `a`. -/
def State.writeBytes (s : State) (a : Nat) (bs : List Byte) : State := { s with mem := Memory.writeAll s.mem a bs }

/-- A data access whose highest address is `last`: above 4095 it raises DataOutOfBounds before anything changes
(R46, R141). The recorded word is the instruction's own (log 13). -/
def whenInBounds (last : Nat) (i : Instr) (s : State) (k : Result) : Result :=
  if last > 4095 then raise (.dataOutOfBounds last s.pc (encode i)) s else k

/-! ### The display (R19, R160 to R162) -/

/-- The value of cell `c`. -/
def Display.cell (d : Display) (c : Cell) : Bool :=
  have h : c.val / 64 < 32 := by have := c.isLt; omega
  d[c.val / 64].getLsbD (c.val % 64)

/-- XOR cell `c` with 1. -/
def Display.flip (d : Display) (c : Cell) : Display :=
  have h : c.val / 64 < 32 := by have := c.isLt; omega
  d.set (c.val / 64) (d[c.val / 64] ^^^ BitVec.twoPow 64 (c.val % 64))

/-- Every cell 0. -/
def Display.clear : Display := Vector.replicate 32 0

/-- The target cell of sprite pixel (row, col) drawn at origin (x, y): one reduction modulo the buffer
size (R161, C10; log 24). -/
def cellIndex (x y row col : Nat) : Cell := Fin.ofNat 2048 ((x + col) + (y + row) * 64)

/-- One set pixel: note a collision when the cell is 1, then XOR it (R162). -/
def drawPixel (c : Cell) (p : Display × Bool) : Display × Bool := (Display.flip p.1 c, p.2 || Display.cell p.1 c)

/-- One sprite row: its 8 pixels from the most significant bit, the leftmost, on. -/
def drawRow (x y row : Nat) (b : Byte) (p : Display × Bool) : Display × Bool :=
  (List.range 8).foldl (fun q col => if b.getLsbD (7 - col) then drawPixel (cellIndex x y row col) q else q) p

/-- The sprite's rows from `row` on. -/
def drawRows (x y : Nat) : Nat → List Byte → Display × Bool → Display × Bool
  | _, [], p => p
  | row, b :: bs, p => drawRows x y (row + 1) bs (drawRow x y row b p)

/-- The display replaced, and the redraw flag set, whether or not a cell changed (R23, C6; log 23). -/
def State.redrawWith (s : State) (d : Display) : State := { s with disp := d, redraw := true }

/-! ### Free values -/

/-- One free value has been used; the next one is fresh (log 5). -/
def State.takeDraw (s : State) : State := { s with draws := s.draws + 1 }

/-- The mask of random-and-mask (R178). -/
def State.randomMask (s : State) (nn : Byte) : Byte :=
  match s.params.maskSource with
  | .immediate => nn
  | .fixed => Config.randFixedMask

/-- The keys that are down, in rising order (R174). -/
def State.downKeys (s : State) : List Key := (List.finRange 16).filter fun k => s.key[k.val]

/-- Any one of the keys `k :: ks` that are down (R174 (c), D13): the free value picks (log 6). -/
def pickKey (n : Nat) (k : Key) (ks : List Key) : Key :=
  ((k :: ks)[Config.freePick n % (ks.length + 1)]?).getD k

/-! ### Timers (R88) -/

/-- `DT <- v`. -/
def State.setDt (s : State) (b : Byte) : State := { s with dt := b }

/-- `ST <- v`. -/
def State.setSt (s : State) (b : Byte) : State := { s with st := b }

/-- A counter lowered by one, saturating at 0. -/
def lowered (b : Byte) : Byte := if b = 0 then 0 else b - 1

/-- What a tick makes of the sound timer. -/
def tickedSt : SoundPolicy → Byte → Byte
  | .forceZero, _ => 0
  | .decrement, b => lowered b

/-- `tick()`: touches nothing but `DT` and `ST`. -/
def State.tick (s : State) : State := { s with dt := lowered s.dt, st := tickedSt s.params.soundPolicy s.st }

/-! ### The step cycle (R80, R82, R85, R87, R90, R91) -/

/-- Fetch: the big-endian word at the pc, of any parity, or the violation from FETCH_LIMIT on (R82). -/
def State.fetch (s : State) : Except Violation Word :=
  if s.pc.toNat ≥ s.params.fetchLimit.val then .error (.fetchOutOfBounds s.pc)
  else .ok (wordOfBytes (s.readByte s.pc.toNat) (s.readByte (s.pc.toNat + 1)))

/-- The trace record of a step that starts at `s` and fetches `w` (R91). -/
def State.record (s : State) (w : Option Word) : TraceRecord where
  pc   := s.pc
  word := w
  sp   := s.sp
  regs := s.v

/-- The tick that ends a step: with TICK_MODE = PER_STEP, after every step that raised no violation (R87, R89,
R90). -/
def State.tickAfterStep (s : State) : State :=
  if s.faulted then s
  else
    match s.params.tickMode with
    | .perStep => s.tick
    | .external => s

/-- The end of the step that started at `s`, fetched `w` and whose execute stage left `t`: the condition `c` is
signalled, the trace record is given out, and the timers tick. -/
def finishStep (s : State) (w : Option Word) (c : Option Condition) (t : State) : State :=
  { t.tickAfterStep with report := c, trace := some (s.record w) }

/-- The end of a step that executed an instruction: it signals the violation the instruction raised, if any. -/
def finishExecuted (s : State) (w : Word) (t : State) : State :=
  finishStep s (some w) (t.fault.map .violation) t

/-- The step of an unrecognized word: reported, the default advance, nothing else (R85, R201). -/
def unrecognizedStep (s : State) (w : Word) : State :=
  finishStep s (some w) (some (.unrecognizedInstruction s.pc w)) s.advance

/-- The step whose fetch raised `v` (R82, R90). -/
def fetchFaultStep (s : State) (v : Violation) : State :=
  finishStep s none (some (.violation v)) { s with fault := some v }

/-- The outcome of a step whose execute stage answered `r`. -/
def afterExecute (s : State) (w : Word) (r : Result) : Result :=
  match r with
  | .next t => .next (finishExecuted s w t)
  | .fault f => .fault f
  | .refused f => .refused f

/-- `s` with the bytes of the word `w` at the pc, where fetch reads its next instruction. -/
def State.placeWord (s : State) (w : Word) : State := s.writeBytes s.pc.toNat (bytesOfWord w)

/-! ### Codes (R200) -/

/-- The code of a violation. -/
def Violation.code : Violation → Nat
  | .stackOverflow _ _ => 2
  | .stackUnderflow _ _ => 3
  | .fetchOutOfBounds _ => 4
  | .dataOutOfBounds _ _ _ => 5
  | .keyIndexOutOfRange _ _ _ => 6

/-- The code of a condition. -/
def Condition.code : Condition → Nat
  | .unrecognizedInstruction _ _ => 1
  | .violation v => v.code
  | .capacityExceeded _ => 7
  | .ioUnavailable => 8

end Sys2Proof.Machine
end

