-- ==== Sys2Proof/Machine/Flags.lean ====
section
/-! DEFINITION. The flag computations of spec/10_state.md R12 and the two orders in which an operation writes its
result and the flag (spec/00_scope.md R5). Every argument is sampled before the first write. -/

namespace Sys2Proof.Machine

/-- Add registers: 1 when the exact sum exceeds 255 (R126). -/
def carryOut (a b : Byte) : Bool := decide (a.toNat + b.toNat > 255)

/-- Subtract `b` from `a`: 1 means no borrow occurred (R127, R129). -/
def noBorrow (a b : Byte) : Bool := !decide (a.toNat < b.toNat)

/-- Shift-right: the bit shifted out (R128). -/
def lowBit (b : Byte) : Bool := b.getLsbD 0

/-- Shift-left: the bit shifted out (R130). -/
def highBit (b : Byte) : Bool := b.getLsbD 7

/-- Add-to-index: 1 when the exact sum exceeds 0xFFF (R142). -/
def indexOverflow (i : Word) (b : Byte) : Bool := decide (i.toNat + b.toNat > 0xFFF)

/-- The flag first, the destination second: with `x = 0xF` the result remains (R126 to R130, D7). -/
def flagThenResult (x : Reg) (f : Bool) (r : Byte) (s : State) : Result := complete ((s.setFlag f).setReg x r)

/-- The destination first, then the flag zeroed: with `x = 0xF` the zero remains (R123 to R125, D7). -/
def resultThenZeroFlag (x : Reg) (r : Byte) (s : State) : Result := complete ((s.setReg x r).setFlag false)

end Sys2Proof.Machine
end

