-- ==== Sys2Proof/Machine/Alu.lean ====
section
/-! DEFINITION. Register load, add immediate and the register-to-register operations (spec/42_alu.md R120 to
R131). No operation is signed, none raises a violation, all take the default advance. -/

namespace Sys2Proof.Machine

/-- R120. -/
def execLdImm (x : Reg) (nn : Byte) (s : State) : Result := complete (s.setReg x nn)

/-- R121: truncated to 8 bits, no flag. -/
def execAddImm (x : Reg) (nn : Byte) (s : State) : Result := complete (s.setReg x (s.reg x + nn))

/-- R122: no flag. -/
def execLdReg (x y : Reg) (s : State) : Result := complete (s.setReg x (s.reg y))

/-- R123. -/
def execOrReg (x y : Reg) (s : State) : Result := resultThenZeroFlag x (s.reg x ||| s.reg y) s

/-- R124. -/
def execAndReg (x y : Reg) (s : State) : Result := resultThenZeroFlag x (s.reg x &&& s.reg y) s

/-- R125. -/
def execXorReg (x y : Reg) (s : State) : Result := resultThenZeroFlag x (s.reg x ^^^ s.reg y) s

/-- R126. -/
def execAddReg (x y : Reg) (s : State) : Result :=
  flagThenResult x (carryOut (s.reg x) (s.reg y)) (s.reg x + s.reg y) s

/-- R127. -/
def execSubReg (x y : Reg) (s : State) : Result :=
  flagThenResult x (noBorrow (s.reg x) (s.reg y)) (s.reg x - s.reg y) s

/-- R128: the operand is `V[y]`, the destination `V[x]` (D8). -/
def execShr (x y : Reg) (s : State) : Result := flagThenResult x (lowBit (s.reg y)) (s.reg y >>> 1) s

/-- R129: the operands of R127 swapped; the destination is still `V[x]` (D9). -/
def execSubn (x y : Reg) (s : State) : Result :=
  flagThenResult x (noBorrow (s.reg y) (s.reg x)) (s.reg y - s.reg x) s

/-- R130: the operand is `V[y]`, the destination `V[x]` (D8). -/
def execShl (x y : Reg) (s : State) : Result := flagThenResult x (highBit (s.reg y)) (s.reg y <<< 1) s

end Sys2Proof.Machine
end

