-- ==== Sys2Proof/Machine/Operands.lean ====
section
/-! DEFINITION. The operand forms of spec/30_encoding.md R63. The register form is `State.reg`, the immediate
form the byte `NN` itself; no operand is sign-extended, scaled or shifted. -/

namespace Sys2Proof.Machine

/-- Absolute: `NNN`, zero-extended to 16 bits. -/
def absolute (nnn : Addr) : Word := nnn.setWidth 16

/-- Absolute plus register 0: `NNN + V[0]`, not reduced to 12 bits (R108, D25). -/
def State.absolutePlusV0 (s : State) (nnn : Addr) : Word := absolute nnn + (s.reg 0).setWidth 16

/-- Index-register indirect: the exact integer `I + k`, no wrap (R46, R141). -/
def State.indexed (s : State) (k : Nat) : Nat := s.i.toNat + k

/-- Register-selected key: the key `V[x]` names, none when no key has that index (R172). -/
def State.selectedKey (s : State) (x : Reg) : Option Key :=
  if h : (s.reg x).toNat < 16 then some ⟨(s.reg x).toNat, h⟩ else none

/-- A key index as a register's new value. -/
def keyByte (k : Key) : Byte := BitVec.ofNat 8 k.val

/-- The address of the glyph a register names: `V[x] * 5`, no reduction to 4 bits (R143). -/
def glyphAddress (b : Byte) : Word := BitVec.ofNat 16 (b.toNat * glyphSize)

/-- Hundreds, tens and units of a register's value (R144). -/
def digits (b : Byte) : List Byte :=
  [BitVec.ofNat 8 (b.toNat / 100), BitVec.ofNat 8 (b.toNat / 10 % 10), BitVec.ofNat 8 (b.toNat % 10)]

/-- `V[0]` to `V[x]`, ascending (R145). -/
def State.regsTo (s : State) (x : Reg) : List Byte := s.v.toList.take (x.val + 1)

/-- `V[k] <- MemRead(I + k, 1)` for `k` from 0 to `x` (R146). -/
def State.loadRegs (s : State) (x : Reg) : State :=
  { s with v := Vector.ofFn fun k : Reg => if k ≤ x then s.readByte (s.indexed k.val) else s.reg k }

/-- `I` past the transferred range: `I + x + 1` (R145, R146). -/
def State.indexPast (s : State) (x : Reg) : Word := BitVec.ofNat 16 (s.i.toNat + x.val + 1)

end Sys2Proof.Machine
end

