-- ==== Sys2Proof/Machine/ControlFlow.lean ====
section
/-! DEFINITION. Control transfer (spec/41_control_flow.md R100 to R108). -/

namespace Sys2Proof.Machine

/-- R103: pop the stack into the pc, then advance it by 2; StackUnderflow at depth 0. -/
def execRet (s : State) : Result :=
  match s.pop with
  | none => raise (.stackUnderflow s.pc (encode .ret)) s
  | some (a, t) => .next (t.setPc (a + 2))

/-- R100. -/
def execJp (nnn : Addr) (s : State) : Result := .next (s.setPc (absolute nnn))

/-- R101: push the address of the CALL itself; StackOverflow at depth 16. -/
def execCall (nnn : Addr) (s : State) : Result :=
  match s.push s.pc with
  | none => raise (.stackOverflow s.pc (encode (.call nnn))) s
  | some t => .next (t.setPc (absolute nnn))

/-- R104. -/
def execSeImm (x : Reg) (nn : Byte) (s : State) : Result := skipIf (s.reg x == nn) s

/-- R105. -/
def execSneImm (x : Reg) (nn : Byte) (s : State) : Result := skipIf (s.reg x != nn) s

/-- R106; the low nibble is ignored (R69). -/
def execSeReg (x y : Reg) (s : State) : Result := skipIf (s.reg x == s.reg y) s

/-- R107; the low nibble is ignored (R69). -/
def execSneReg (x y : Reg) (s : State) : Result := skipIf (s.reg x != s.reg y) s

/-- R108. -/
def execJpV0 (nnn : Addr) (s : State) : Result := .next (s.setPc (s.absolutePlusV0 nnn))

end Sys2Proof.Machine
end

