-- ==== Sys2Proof/Machine/Drawing.lean ====
section
/-! DEFINITION. The display operations (spec/44_display.md R160 to R162). -/

namespace Sys2Proof.Machine

/-- R160: redraw is set whether or not a cell changed. -/
def execCls (s : State) : Result := complete (s.redrawWith Display.clear)

/-- The sprite of these bytes drawn with its origin at (`V[x]`, `V[y]`): display, collision flag, redraw (R162). -/
def State.drawSprite (s : State) (x y : Reg) (bs : List Byte) : State :=
  let p := drawRows (s.reg x).toNat (s.reg y).toNat 0 bs (s.disp, false)
  (s.setFlag p.2).redrawWith p.1

/-- R162: `n` rows read at `I`; the range is checked only when there is a row to read; `I` is unchanged. -/
def execDrw (x y : Reg) (n : Nat) (s : State) : Result :=
  match n with
  | 0 => complete (s.drawSprite x y [])
  | k + 1 =>
    whenInBounds (s.indexed k) (.drw x y (k + 1)) s
      (complete (s.drawSprite x y (s.readBytes (s.indexed 0) (k + 1))))

end Sys2Proof.Machine
end

