-- ==== Sys2Proof/Machine/IndexMemory.lean ====
section
/-! DEFINITION. The index register and the memory operations (spec/43_index_memory.md R140 to R146). -/

namespace Sys2Proof.Machine

/-- R140. -/
def execLdI (nnn : Addr) (s : State) : Result := complete (s.setI (absolute nnn))

/-- R142: the flag is written on every execution; `I` is the sum modulo 2^16. -/
def execAddI (x : Reg) (s : State) : Result :=
  complete ((s.setFlag (indexOverflow s.i (s.reg x))).setI (s.i + (s.reg x).setWidth 16))

/-- R143. -/
def execLdF (x : Reg) (s : State) : Result := complete (s.setI (glyphAddress (s.reg x)))

/-- R144: three digits at `I`, `I + 1`, `I + 2`; `I` is unchanged. -/
def execLdB (x : Reg) (s : State) : Result :=
  whenInBounds (s.indexed 2) (.ldB x) s (complete (s.writeBytes (s.indexed 0) (digits (s.reg x))))

/-- R145: `V[0..x]` to memory at `I`; `I` moves past the range. -/
def execDump (x : Reg) (s : State) : Result :=
  whenInBounds (s.indexed x.val) (.dump x) s
    (complete ((s.writeBytes (s.indexed 0) (s.regsTo x)).setI (s.indexPast x)))

/-- R146: memory at `I` to `V[0..x]`; `I` moves past the range. -/
def execLoad (x : Reg) (s : State) : Result :=
  whenInBounds (s.indexed x.val) (.load x) s (complete ((s.loadRegs x).setI (s.indexPast x)))

end Sys2Proof.Machine
end

