-- ==== Sys2Proof/Machine/KeysTimersRandom.lean ====
section
/-! DEFINITION. Key skips, wait-for-key, timer moves and random-and-mask (spec/45_keys_timers_random.md R170 to
R178). -/

namespace Sys2Proof.Machine

/-- R178: a fresh free byte, masked. -/
def execRnd (x : Reg) (nn : Byte) (s : State) : Result :=
  complete (s.takeDraw.setReg x (Config.freeByte s.draws &&& s.randomMask nn))

/-- A skip on the state of the key `V[x]` names; KeyIndexOutOfRange when there is none (R170 to R172). -/
def skipOnKey (down : Bool) (x : Reg) (i : Instr) (s : State) : Result :=
  match s.selectedKey x with
  | none => raise (.keyIndexOutOfRange (s.reg x) s.pc (encode i)) s
  | some k => skipIf (s.key[k.val] == down) s

/-- R170. -/
def execSkp (x : Reg) (s : State) : Result := skipOnKey true x (.skp x) s

/-- R171. -/
def execSknp (x : Reg) (s : State) : Result := skipOnKey false x (.sknp x) s

/-- R173: `DT` before this step's tick. -/
def execLdVxDt (x : Reg) (s : State) : Result := complete (s.setReg x s.dt)

/-- R174: with no key down the pc stays and nothing is written; with one its index is written; with several, any
one of them. -/
def execLdVxK (x : Reg) (s : State) : Result :=
  match s.downKeys with
  | [] => .next s
  | [k] => complete (s.setReg x (keyByte k))
  | k :: ks => complete (s.takeDraw.setReg x (keyByte (pickKey s.draws k ks)))

/-- R175: the tick of the same step follows (R87). -/
def execLdDtVx (x : Reg) (s : State) : Result := complete (s.setDt (s.reg x))

/-- R176: the tick of the same step follows (R87). -/
def execLdStVx (x : Reg) (s : State) : Result := complete (s.setSt (s.reg x))

end Sys2Proof.Machine
end

