-- ==== Sys2Proof/Machine/Step.lean ====
section
/-! DEFINITION. One step (spec/40_step_cycle.md R80), and the placing of an instruction where the next step
fetches it. -/

namespace Sys2Proof.Machine

/-- R80: the latch (R81), fetch (R82), decode (R83), execute (R84) or the reported no-op (R85), the tick (R87).
It carries no time (log 22). -/
def step (s : State) : Host.Outcome State Fault Refusal :=
  if s.faulted then .next s
  else
    match s.fetch with
    | .error v => .next (fetchFaultStep s v)
    | .ok w =>
      match decodeWord w with
      | .error _ => .next (unrecognizedStep s w)
      | .ok i => afterExecute s w (exec i s)

/-- `s` with the instruction of `nbits` bits `w` (numbered as the opcode table numbers them) at the pc, where the
next step fetches it; it stands for the host's `load` (log 20). -/
def State.withFetchWord (s : State) (nbits w : Nat) : State := s.placeWord (tableWord nbits w)

end Sys2Proof.Machine
end

