-- ==== Sys2Proof/Machine/HostEvents.lean ====
section
/-! DEFINITION. The host's moves on the machine, each one transition between steps, and what the host reads
(spec/70_reset_and_hazards.md R230 to R242; spec/10_state.md R26). -/

namespace Sys2Proof.Machine

/-- The host's moves (R2, R26). -/
inductive HostEvent where
  /-- `initialize()` (R230) -/
  | reset
  /-- `load(bytes)` (R235, R236) -/
  | load (bytes : List Byte)
  /-- a load attempt whose byte source cannot be opened (R237) -/
  | loadUnavailable
  /-- key `k` becomes down or up (R238) -/
  | setKey (k : Key) (down : Bool)
  /-- the external tick (R239) -/
  | tick
  /-- `redraw <- 0` (R240) -/
  | clearRedraw
  deriving DecidableEq, Repr

/-- R230: every state element at its reset value, nothing of the previous state read. The policies are the
machine's, not its state, and stay; the count of free values goes on, so that no proof can take the random bytes
after a reset to be those before it (N7; logs 2, 5). DESIGN CHOICE: a condition report or trace record of before the
reset is discarded, where the spec gives the two outputs no reset behaviour (R209; log 7). -/
def State.resetEvent (s : State) : State := { State.reset with params := s.params, draws := s.draws }

/-- R235, R236: the bytes are copied to 0x200 and up and nothing else changes; more than 3584 of them change no
state at all and CapacityExceeded is reported. `fault` is not set. -/
def State.loadEvent (s : State) (bytes : List Byte) : State :=
  if entry + bytes.length > memSize then { s with report := some (.capacityExceeded bytes.length) }
  else { s.writeBytes entry bytes with report := none }

/-- R239: a tick event while `fault` is set does nothing. -/
def State.tickEvent (s : State) : State := if s.faulted then s else s.tick

/-- The state after a host event; none for a move the host does not have: a tick event with TICK_MODE = PER_STEP
(R239). -/
def hostEvent (e : HostEvent) (s : State) : Option State :=
  match e with
  | .reset => some s.resetEvent
  | .load bytes => some (s.loadEvent bytes)
  | .loadUnavailable => some { s with report := some .ioUnavailable }
  | .setKey k down => some { s with key := s.key.set k.val down }
  | .tick =>
    match s.params.tickMode with
    | .perStep => none
    | .external => some s.tickEvent
  | .clearRedraw => some { s with redraw := false }

/-- One move of either agent: the core's step or a host event (R2). -/
inductive Move where
  | step
  | host (e : HostEvent)
  deriving DecidableEq, Repr

/-- The state after a move. -/
def move (m : Move) (s : State) : Option State :=
  match m with
  | .step =>
    match Sys2Proof.Machine.step s with
    | .next t => some t
    | .fault _ => none
    | .refused _ => none
  | .host e => hostEvent e s

/-- The state after a sequence of moves, none when one of them is no move. -/
def runMoves : List Move → State → Option State
  | [], s => some s
  | m :: ms, s =>
    match move m s with
    | some t => runMoves ms t
    | none => none

/-- The boot order: reset, then load, then key states, then steps (R242). -/
def bootMoves (rom : List Byte) (keys : List (Key × Bool)) : List Move :=
  [.host .reset, .host (.load rom)] ++ keys.map fun k => .host (.setKey k.1 k.2)

/-- What the host reads between steps (R26, R241): the display buffer, the redraw flag, the timers, the trace
record and the condition report. Reading changes nothing. -/
structure HostView where
  disp   : Display
  redraw : Bool
  dt     : Byte
  st     : Byte
  trace  : Option TraceRecord
  report : Option Condition
  deriving DecidableEq, Repr

/-- The outputs of a state. -/
def State.hostView (s : State) : HostView where
  disp   := s.disp
  redraw := s.redraw
  dt     := s.dt
  st     := s.st
  trace  := s.trace
  report := s.report

end Sys2Proof.Machine
end

