-- ==== Sys2Proof/Safety.lean ====
section
/-! DEFINITION. What counts as a safe run, in the terms claims use (spec/60_exceptions.md R201, R203;
spec/40_step_cycle.md R81; spec/70_reset_and_hazards.md R243). -/

namespace Sys2Proof.Safety

open Sys2Proof.Machine

/-- No violation is latched. A state with the latch set is faulted and never final (R81, R203). -/
def Safe (s : State) : Prop := s.fault = none

/-- The latest step or load signalled no condition (R201 allows a claim to ask for this). -/
def Quiet (s : State) : Prop := s.report = none

/-- `n` steps lead from `s` to `t`, and `t` is no faulted state: the form in which a claim speaks of a final
state, so that nothing but the fault is provable of a run that reaches a violation (R203). -/
def FinalAfter (n : Nat) (s t : State) : Prop := Host.Core.run Sys2Proof.core n s = .next t ∧ Safe t

/-- The moves lead from `s` to `t`, and `t` is no faulted state. -/
def FinalAfterMoves (ms : List Move) (s t : State) : Prop := runMoves ms s = some t ∧ Safe t

/-- The conventional end of a program: a jump to its own address with both timers 0 (R243, D22). -/
def AtSelfJump (s : State) : Prop :=
  Safe s ∧ s.dt = 0 ∧ s.st = 0 ∧ ∃ nnn : Addr, s.pc = absolute nnn ∧ s.fetch = .ok (encode (.jp nnn))

end Sys2Proof.Safety
end

