-- ==== Sys2Proof/Certificates/Slice0/Obligations.lean ====
section
/-! DEFINITION. The statements for the provers, from the numbered rules of spec/. Every statement about an
instruction says that `exec` answers a next state, what that state holds, and its frame. -/

open Sys2Proof Sys2Proof.Machine

/-! ### The frame -/

/-- What an instruction may change besides the pc. -/
structure Sys2Proof.Claims.Touch where
  /-- the registers it may write -/
  regs    : Reg → Prop := fun _ => False
  /-- the addresses it may store to -/
  mem     : Nat → Prop := fun _ => False
  /-- it may write `I` -/
  index   : Bool := false
  /-- it may move the stack: entries and `sp` -/
  stack   : Bool := false
  /-- it may write `DT` -/
  delay   : Bool := false
  /-- it may write `ST` -/
  sound   : Bool := false
  /-- it may write the display buffer and the redraw flag -/
  display : Bool := false
  /-- it may use a free value -/
  draws   : Bool := false

/-- `t` differs from `s` at most in the pc and in what `c` names: every other register, every other byte of memory,
every other special register, the stack, the display, the keys, the fault latch, the policies and the host's
outputs are as before. -/
def Sys2Proof.Claims.Frame (c : Claims.Touch) (s t : State) : Prop :=
  (∀ r, ¬ c.regs r → t.reg r = s.reg r) ∧
  (∀ a, ¬ c.mem a → t.readByte a = s.readByte a) ∧
  (c.index = false → t.i = s.i) ∧
  (c.stack = false → t.stack = s.stack ∧ t.sp = s.sp) ∧
  (c.delay = false → t.dt = s.dt) ∧
  (c.sound = false → t.st = s.st) ∧
  (c.display = false → t.disp = s.disp ∧ t.redraw = s.redraw) ∧
  (c.draws = false → t.draws = s.draws) ∧
  t.key = s.key ∧ t.fault = s.fault ∧ t.params = s.params ∧ t.report = s.report ∧ t.trace = s.trace

open Sys2Proof.Claims

/-! ### Encoding (spec/30_encoding.md) -/

/-- Words written out from the opcode map's encodings, two or more for each family, decode to the instructions they
stand for (30_encoding.md section 3; 95_test_vectors.md). The opcode numbers are the spec's, from general knowledge
(log 8). -/
def Obligations.SampleWordsDecodeAsTheMapSays : Prop :=
  decodeWord 0x00E0 = .ok .cls ∧ decodeWord 0x00EE = .ok .ret ∧
  decodeWord 0x1204 = .ok (.jp 0x204) ∧ decodeWord 0x220A = .ok (.call 0x20A) ∧
  decodeWord 0x3105 = .ok (.seImm 1 0x05) ∧ decodeWord 0xB234 = .ok (.jpV0 0x234) ∧
  decodeWord 0x6005 = .ok (.ldImm 0 0x05) ∧ decodeWord 0x8014 = .ok (.addReg 0 1) ∧
  decodeWord 0x8226 = .ok (.shr 2 2) ∧ decodeWord 0xA300 = .ok (.ldI 0x300) ∧
  decodeWord 0xF255 = .ok (.dump 2) ∧ decodeWord 0xD01F = .ok (.drw 0 1 15) ∧
  decodeWord 0xE09E = .ok (.skp 0) ∧ decodeWord 0xF30A = .ok (.ldVxK 3) ∧
  decodeWord 0xC00F = .ok (.rnd 0 0x0F) ∧ decodeWord 0xF018 = .ok (.ldStVx 0)

/-- Decoding the word of a well-formed instruction gives the instruction back, as a word and as the first two bytes of
any byte list: no operand bit is dropped (R60, R62, R63). The opcode numbers are the spec's, from general knowledge
(log 8). -/
def Obligations.DecodeOfEncodeIsTheInstruction : Prop :=
  ∀ i : Instr, i.WellFormed → decodeWord (encode i) = .ok i ∧
    ∀ rest, decodeBytes (bytesOfWord (encode i) ++ rest) = .ok (i, rest)

/-- A recognized word decodes to a well-formed instruction whose word it is: no two words share an instruction. The
opcode numbers are the spec's, from general knowledge (log 8). -/
def Obligations.EncodeOfDecodeIsTheWord : Prop :=
  ∀ (w : Word) (i : Instr), decodeWord w = .ok i → i.WellFormed ∧ encode i = w

/-- The decoder is the opcode map: a word decodes to an instruction of a row exactly when the row admits it, and no
two different rows admit one word (R64, R73). The opcode numbers are the spec's, from general knowledge (log 8); R73
is the spec's own inference. -/
def Obligations.DecoderAgreesWithTheOpcodeMap : Prop :=
  (∀ (w : Word) (r : OpcodeRow), r ∈ opcodeMap →
    ((∃ i, decodeWord w = .ok i ∧ i.mnemonic = r.mnemonic) ↔ r.admits w = true)) ∧
  ∀ (w : Word) (r r' : OpcodeRow), r ∈ opcodeMap → r' ∈ opcodeMap → r.admits w = true → r'.admits w = true → r = r'

/-- Groups 0, 8, E and F: which selector values are recognized, and as what; every other one is unrecognized (R65,
R66, R67, R68). The selector values are the spec's, from general knowledge (log 8). -/
def Obligations.SelectorGroupsDecodeByTheirSelector : Prop :=
  (∀ w : Word, nibble w 3 = 0x0 →
    decodeWord w = if w = 0x00E0 then .ok .cls else if w = 0x00EE then .ok .ret else .error (.unrecognizedGroup0 w)) ∧
  (∀ w : Word, nibble w 3 = 0x8 → ∀ x y : Reg, x.val = (nibble w 2).toNat → y.val = (nibble w 1).toNat →
    decodeWord w =
      if nibble w 0 = 0x0 then .ok (.ldReg x y) else if nibble w 0 = 0x1 then .ok (.orReg x y)
      else if nibble w 0 = 0x2 then .ok (.andReg x y) else if nibble w 0 = 0x3 then .ok (.xorReg x y)
      else if nibble w 0 = 0x4 then .ok (.addReg x y) else if nibble w 0 = 0x5 then .ok (.subReg x y)
      else if nibble w 0 = 0x6 then .ok (.shr x y) else if nibble w 0 = 0x7 then .ok (.subn x y)
      else if nibble w 0 = 0xE then .ok (.shl x y) else .error (.unrecognizedGroup8 w)) ∧
  (∀ w : Word, nibble w 3 = 0xE → ∀ x : Reg, x.val = (nibble w 2).toNat →
    decodeWord w =
      if w.extractLsb' 0 8 = 0x9E#8 then .ok (.skp x) else if w.extractLsb' 0 8 = 0xA1#8 then .ok (.sknp x)
      else .error (.unrecognizedGroupE w)) ∧
  (∀ w : Word, nibble w 3 = 0xF → ∀ x : Reg, x.val = (nibble w 2).toNat →
    decodeWord w =
      if w.extractLsb' 0 8 = 0x07#8 then .ok (.ldVxDt x) else if w.extractLsb' 0 8 = 0x0A#8 then .ok (.ldVxK x)
      else if w.extractLsb' 0 8 = 0x15#8 then .ok (.ldDtVx x) else if w.extractLsb' 0 8 = 0x18#8 then .ok (.ldStVx x)
      else if w.extractLsb' 0 8 = 0x1E#8 then .ok (.addI x) else if w.extractLsb' 0 8 = 0x29#8 then .ok (.ldF x)
      else if w.extractLsb' 0 8 = 0x33#8 then .ok (.ldB x) else if w.extractLsb' 0 8 = 0x55#8 then .ok (.dump x)
      else if w.extractLsb' 0 8 = 0x65#8 then .ok (.load x) else .error (.unrecognizedGroupF w))

/-- Every word 5XYn is skip-if-regs-equal and every word 9XYn is skip-if-regs-not-equal, and `n` changes nothing
(R69; the choice is the spec's decision D10, log 11). -/
def Obligations.LowNibbleOfGroups5And9IsIgnored : Prop :=
  ∀ (x y : Reg) (n : Nibble),
    decodeWord (encodeRegReg 0x5 x y n) = .ok (.seReg x y n) ∧ decodeWord (encodeRegReg 0x9 x y n) = .ok (.sneReg x y n) ∧
    ∀ (m : Nibble) (s : State),
      exec (.seReg x y n) s = exec (.seReg x y m) s ∧ exec (.sneReg x y n) s = exec (.sneReg x y m) s

/-! ### The step cycle (spec/40_step_cycle.md) -/

/-- When the two bytes at the pc decode to an instruction, the step is `exec` of it, with the end of the step
(`finishExecuted`: the report, the trace record, the tick) around a next state. -/
def Obligations.StepRunsTheDecodedInstruction : Prop :=
  ∀ (s : State) (i : Instr), s.fault = none → s.pc.toNat < s.params.fetchLimit.val →
    decodeBytes [s.readByte s.pc.toNat, s.readByte (s.pc.toNat + 1)] = .ok (i, []) → i.WellFormed →
    (∀ u, exec i s = .next u → step s = .next (finishExecuted s (encode i) u)) ∧
    (∀ f, exec i s = .fault f → step s = .fault f) ∧ (∀ r, exec i s = .refused r → step s = .refused r)

/-- A step always answers a next state: every word, every state. That a violation is a next state with the latch set
is the model's choice (logs 1, 19). -/
def Obligations.EveryStepAnswersANextState : Prop :=
  (∀ (i : Instr) (s : State), ∃ t, exec i s = .next t) ∧ ∀ s : State, ∃ t, step s = .next t

/-- Fetch forms the big-endian word of the bytes at pc and pc + 1, whatever the pc's parity; from FETCH_LIMIT on the
step latches FetchOutOfBounds with the pc, reports it, gives out a trace record of the step's start without a word,
and changes nothing else (R82, R90, R91; the limit at reset is 4094). That the fetch bound reports is the spec's
decision D4 (log 13) and its limit a policy held in the state (log 2); that the step then freezes is D5 (log 1); the
trace record's content is D21, and the two output fields are the model's (log 7). -/
def Obligations.FetchReadsBigEndianOrLatches : Prop :=
  State.reset.params.fetchLimit.val = 4094 ∧
  (∀ s : State, s.pc.toNat < s.params.fetchLimit.val →
    ∃ w : Word, s.fetch = .ok w ∧ w.toNat = (s.readByte s.pc.toNat).toNat * 256 + (s.readByte (s.pc.toNat + 1)).toNat) ∧
  ∀ s : State, s.fault = none → s.params.fetchLimit.val ≤ s.pc.toNat →
    step s = .next { s with
      fault := some (.fetchOutOfBounds s.pc), report := some (.violation (.fetchOutOfBounds s.pc)),
      trace := some { pc := s.pc, word := none, sp := s.sp, regs := s.v } }

/-- A word no row of the opcode map admits is reported with its pc; the pc advances by 2; the tick follows as after
any step; no other state changes, and `fault` stays none (R85, R201). Which words no row admits rests on the opcode
numbers of the spec's general knowledge (D2, log 8), the two tick modes are its decision D14 (log 2), the trace record
its decision D21, and the two output fields are the model's (log 7). -/
def Obligations.UnrecognizedWordIsAReportedNoOp : Prop :=
  ∀ (s : State) (w : Word), s.fault = none → s.fetch = .ok w → (∀ r ∈ opcodeMap, r.admits w = false) →
    ∃ t, step s = .next t ∧ t.report = some (.unrecognizedInstruction s.pc w) ∧
      t = { s with
        pc := s.pc + 2, dt := t.dt, st := t.st, report := t.report,
        trace := some { pc := s.pc, word := some w, sp := s.sp, regs := s.v } } ∧
      (s.params.tickMode = .perStep → t.dt = s.tick.dt ∧ t.st = s.tick.st) ∧
      (s.params.tickMode = .external → t.dt = s.dt ∧ t.st = s.st)

/-- A tick lowers `DT` by one, saturating at 0; it forces `ST` to 0 or lowers it, by policy; it touches nothing else
(R88). That the sound timer's policy is a parameter is the spec's decision D15, that it stands in the state is the
model's choice (log 2). -/
def Obligations.TickLowersTheTimers : Prop :=
  ∀ s : State,
    s.tick.dt.toNat = s.dt.toNat - 1 ∧
    (s.params.soundPolicy = .forceZero → s.tick.st = 0) ∧
    (s.params.soundPolicy = .decrement → s.tick.st.toNat = s.st.toNat - 1) ∧
    s.tick.pc = s.pc ∧ Frame { delay := true, sound := true } s s.tick

/-- With PER_STEP every step that completes without a violation ends with one tick, after the operation's effect; with
EXTERNAL a step performs none (R87, R89). That there are two modes is the spec's decision D14 (log 2). -/
def Obligations.StepTicksOnceAfterTheOperation : Prop :=
  ∀ (s : State) (w : Word) (i : Instr) (u : State), s.fault = none → s.fetch = .ok w → decodeWord w = .ok i →
    exec i s = .next u → u.fault = none →
    ∃ t, step s = .next t ∧
      (s.params.tickMode = .perStep → t.dt = u.tick.dt ∧ t.st = u.tick.st) ∧
      (s.params.tickMode = .external → t.dt = u.dt ∧ t.st = u.st) ∧
      t = { u with dt := t.dt, st := t.st, report := none, trace := t.trace }

/-- The trace record of a step holds pc, sp and the registers at its start and the word fetched, none when the fetch
was out of bounds; and neither output affects execution (R91). The sampling point is the spec's decision D21, the two
output fields are the model's (log 7). -/
def Obligations.TraceIsSampledAtTheStartAndAffectsNothing : Prop :=
  (∀ s : State, s.fault = none →
    ∃ t r, step s = .next t ∧ t.trace = some r ∧ r.pc = s.pc ∧ r.sp = s.sp ∧ r.regs = s.v ∧
      (∀ w, s.fetch = .ok w → r.word = some w) ∧ (∀ v, s.fetch = .error v → r.word = none)) ∧
  ∀ (s : State) (r : Option Condition) (tr : Option TraceRecord), s.fault = none →
    step { s with report := r, trace := tr } = step s

/-- A step that raises a violation sets `fault` to it and reports it, and changes no other state: not the pc, no
register, no memory, no timer; no later step does anything, and no claim has it as a final state (R90, R203). The
rules are the spec's decision D5 (log 1). -/
def Obligations.ViolationChangesOnlyTheLatch : Prop :=
  ∀ s t : State, s.fault = none → step s = .next t → t.fault ≠ none →
    (∃ v, t = { s with fault := some v, report := some (.violation v), trace := t.trace }) ∧
    step t = .next t ∧ ∀ n u, ¬ Safety.FinalAfter n t u

/-- While `fault` is set a step changes nothing, and it stays set under every host event but reset, which clears it
(R81). The rule is the spec's decision D5 (log 1). -/
def Obligations.LatchedFaultFreezesUntilReset : Prop :=
  ∀ s : State, s.fault ≠ none →
    step s = .next s ∧
    (∀ e t, hostEvent e s = some t → e ≠ .reset → t.fault = s.fault) ∧
    ∃ t, hostEvent .reset s = some t ∧ t.fault = none

/-- A data access above 4095 raises DataOutOfBounds with the highest address before anything changes, in each of the
four instructions; the effective address is the exact integer `I + k` (R46). The rule is the spec's decision D6 (log
13). -/
def Obligations.DataAccessAboveMemoryIsAViolation : Prop :=
  ∀ (s : State) (x y : Reg) (n : Nat),
    (s.i.toNat + 2 > 4095 →
      exec (.ldB x) s = .next { s with fault := some (.dataOutOfBounds (s.i.toNat + 2) s.pc (encode (.ldB x))) }) ∧
    (s.i.toNat + x.val > 4095 →
      exec (.dump x) s =
        .next { s with fault := some (.dataOutOfBounds (s.i.toNat + x.val) s.pc (encode (.dump x))) } ∧
      exec (.load x) s =
        .next { s with fault := some (.dataOutOfBounds (s.i.toNat + x.val) s.pc (encode (.load x))) }) ∧
    (n ≠ 0 → s.i.toNat + n - 1 > 4095 →
      exec (.drw x y n) s =
        .next { s with fault := some (.dataOutOfBounds (s.i.toNat + n - 1) s.pc (encode (.drw x y n))) })

/-! ### Whole-machine rules (spec/10_state.md) -/

/-- Memory keeps its canonical form under every step and every host event. The form is the model's (log 21): equal
memories are equal data, and nothing is listed outside the 4096 bytes. -/
def Obligations.MemoryStaysCanonical : Prop :=
  (∀ s t : State, s.mem.wf = true → step s = .next t → t.mem.wf = true) ∧
  ∀ (e : HostEvent) (s t : State), s.mem.wf = true → hostEvent e s = some t → t.mem.wf = true

/-- The pc is at most 0x10FE and every active stack entry is below FETCH_LIMIT. -/
def Sys2Proof.Claims.BoundedControl (s : State) : Prop :=
  s.pc.toNat ≤ 0x10FE ∧ ∀ k : Fin 16, k.val < s.sp.val → (s.stack[k.val]).toNat < s.params.fetchLimit.val

/-- The pc stays at most 0x10FE and every pushed address below FETCH_LIMIT, so no pc arithmetic wraps (R15). The
bounds are the spec's own inference (`[derived]`, decision D25, log 14). -/
def Obligations.PcAndStackStayBounded : Prop :=
  (∀ s t : State, BoundedControl s → step s = .next t → BoundedControl t) ∧
  (∀ (e : HostEvent) (s t : State), BoundedControl s → hostEvent e s = some t → BoundedControl t) ∧
  ∀ s : State, BoundedControl s → (s.pc + 4).toNat = s.pc.toNat + 4

/-- With the default policies the sound timer is 0 after every move of either agent (R246 b). It is the spec's own
inference (`[derived]`). -/
def Obligations.SoundTimerStaysSilentByDefault : Prop :=
  ∀ (m : Move) (s t : State), s.params.tickMode = .perStep → s.params.soundPolicy = .forceZero → s.st = 0 →
    move m s = some t → t.params.tickMode = .perStep ∧ t.params.soundPolicy = .forceZero ∧ t.st = 0

/-- The three invariants hold right after reset. The canonical form is the model's (log 21); that reset has PER_STEP
and FORCE_ZERO is the spec's decisions D14 and D15, held in the state (log 2). -/
def Obligations.InvariantsHoldAtReset : Prop :=
  State.reset.mem.wf = true ∧ BoundedControl State.reset ∧ State.reset.params.tickMode = .perStep ∧
    State.reset.params.soundPolicy = .forceZero ∧ State.reset.st = 0

/-- No step changes a key state or a policy of the machine (R20). That the policies stand in the state is the model's
choice (log 2). -/
def Obligations.KeysAndPoliciesAreReadOnlyToTheCore : Prop :=
  ∀ s t : State, step s = .next t → t.key = s.key ∧ t.params = s.params

/-- Only call and return touch the stack (R17). -/
def Obligations.OnlyCallAndReturnTouchTheStack : Prop :=
  ∀ (i : Instr) (s t : State), exec i s = .next t → t.stack ≠ s.stack ∨ t.sp ≠ s.sp →
    i = .ret ∨ ∃ nnn, i = .call nnn

/-- Only clear screen and draw sprite change the display or the redraw flag, and the core never clears that flag
(R19, R23). -/
def Obligations.OnlyDisplayOperationsTouchTheDisplay : Prop :=
  (∀ (i : Instr) (s t : State), exec i s = .next t → t.disp ≠ s.disp ∨ t.redraw ≠ s.redraw →
    i = .cls ∨ ∃ x y n, i = .drw x y n) ∧
  ∀ s t : State, step s = .next t → s.redraw = true → t.redraw = true

/-- Only store-digits and register dump write memory (R45). -/
def Obligations.OnlyStoreDigitsAndDumpWriteMemory : Prop :=
  ∀ (i : Instr) (s t : State), exec i s = .next t → t.mem ≠ s.mem → ∃ x, i = .ldB x ∨ i = .dump x

/-- Only the instructions of the table of section 3 of 10_state.md write `V[0xF]`, unless it is their named
destination (R12). -/
def Obligations.OnlyFlagWritersTouchTheFlag : Prop :=
  ∀ (i : Instr) (s t : State), exec i s = .next t → t.reg flagReg ≠ s.reg flagReg →
    (∃ x y, i = .orReg x y ∨ i = .andReg x y ∨ i = .xorReg x y ∨ i = .addReg x y ∨ i = .subReg x y ∨ i = .subn x y ∨
      i = .shr x y ∨ i = .shl x y ∨ (∃ n, i = .drw x y n) ∨ i = .addI x) ∨
    (∃ nn, i = .ldImm flagReg nn ∨ i = .addImm flagReg nn ∨ i = .rnd flagReg nn) ∨
    (∃ y, i = .ldReg flagReg y) ∨ i = .ldVxDt flagReg ∨ i = .ldVxK flagReg ∨ i = .load flagReg

/-- No instruction reads the sound timer: changing it changes no other part of any outcome (R22). -/
def Obligations.SoundTimerIsNeverRead : Prop :=
  ∀ (i : Instr) (s : State) (b : Byte), (∀ x, i ≠ .ldStVx x) →
    ∃ t, exec i s = .next t ∧ exec i { s with st := b } = .next { t with st := b }

/-! ### Control transfer (spec/41_control_flow.md) -/

/-- Jump: the pc is `NNN` and nothing else changes (R100). -/
def Obligations.JumpSetsThePc : Prop :=
  ∀ (nnn : Addr) (s : State), ∃ t, exec (.jp nnn) s = .next t ∧ t.pc.toNat = nnn.toNat ∧ Frame {} s t

/-- Jump-plus-register0: the pc is `NNN + V[0]`, not reduced to 12 bits; `V[0]` is the register whatever bits 8 to 11
hold (R108; D25). That nothing is reduced to 12 bits is the spec's decision (log 14). -/
def Obligations.JumpPlusRegister0AddsV0 : Prop :=
  ∀ (nnn : Addr) (s : State),
    ∃ t, exec (.jpV0 nnn) s = .next t ∧ t.pc.toNat = nnn.toNat + (s.reg 0).toNat ∧ Frame {} s t

/-- Call: below depth 16 the call's own address is pushed and the pc becomes `NNN`; at depth 16 StackOverflow is
latched and nothing else changes (R101). The slot numbering is the spec's decision D28 (log 15), the freeze its
decision D5 (log 1). -/
def Obligations.CallPushesItsOwnAddress : Prop :=
  ∀ (nnn : Addr) (s : State),
    (s.sp.val < 16 → ∃ t, exec (.call nnn) s = .next t ∧
      (∀ k : Fin 16, t.stack[k.val] = if k.val = s.sp.val then s.pc else s.stack[k.val]) ∧
      t.sp.val = s.sp.val + 1 ∧ t.pc.toNat = nnn.toNat ∧ Frame { stack := true } s t) ∧
    (s.sp.val = 16 → exec (.call nnn) s = .next { s with fault := some (.stackOverflow s.pc (encode (.call nnn))) })

/-- Return: above depth 0 the pc becomes the popped entry plus 2 and the popped slot keeps its value; at depth 0
StackUnderflow is latched and nothing else changes (R103). The slot numbering is the spec's decision D28 (log 15), the
freeze its decision D5 (log 1). -/
def Obligations.ReturnPopsAndAdvances : Prop :=
  ∀ s : State,
    (∀ k : Fin 16, s.sp.val = k.val + 1 → ∃ t, exec .ret s = .next t ∧
      t.pc = s.stack[k.val] + 2 ∧ t.sp.val = k.val ∧ t.stack = s.stack ∧ Frame { stack := true } s t) ∧
    (s.sp.val = 0 → exec .ret s = .next { s with fault := some (.stackUnderflow s.pc (encode .ret)) })

/-- A return at the depth a call left, with the stack as the call left it, resumes right after the call. The slot
numbering is the spec's decision D28 (log 15). -/
def Obligations.ReturnAfterCallResumesBehindTheCall : Prop :=
  ∀ (nnn : Addr) (s : State), s.sp.val < 16 →
    ∃ t, exec (.call nnn) s = .next t ∧
      ∀ u : State, u.stack = t.stack → u.sp = t.sp →
        ∃ v, exec .ret u = .next v ∧ v.pc = s.pc + 2 ∧ v.sp = s.sp

/-- The two skips on a register and an immediate (R104, R105). -/
def Obligations.ImmediateSkipsCompareAndSkip : Prop :=
  ∀ (x : Reg) (nn : Byte) (s : State),
    (∃ t, exec (.seImm x nn) s = .next t ∧
      t.pc = (if s.reg x = nn then s.pc + 4 else s.pc + 2) ∧ Frame {} s t) ∧
    ∃ t, exec (.sneImm x nn) s = .next t ∧
      t.pc = (if s.reg x ≠ nn then s.pc + 4 else s.pc + 2) ∧ Frame {} s t

/-- The two skips on two registers, whatever the low nibble (R106, R107). That the low nibble plays no part is the
spec's decision D10 (log 11). -/
def Obligations.RegisterSkipsCompareAndSkip : Prop :=
  ∀ (x y : Reg) (n : Nibble) (s : State),
    (∃ t, exec (.seReg x y n) s = .next t ∧
      t.pc = (if s.reg x = s.reg y then s.pc + 4 else s.pc + 2) ∧ Frame {} s t) ∧
    ∃ t, exec (.sneReg x y n) s = .next t ∧
      t.pc = (if s.reg x ≠ s.reg y then s.pc + 4 else s.pc + 2) ∧ Frame {} s t

/-! ### Loads and arithmetic (spec/42_alu.md) -/

/-- Load immediate and register-to-register load write the destination and no flag (R120, R122). -/
def Obligations.LoadsWriteTheDestination : Prop :=
  ∀ (x y : Reg) (nn : Byte) (s : State),
    (∃ t, exec (.ldImm x nn) s = .next t ∧ t.reg x = nn ∧ t.pc = s.pc + 2 ∧ Frame { regs := fun r => r = x } s t) ∧
    ∃ t, exec (.ldReg x y) s = .next t ∧ t.reg x = s.reg y ∧ t.pc = s.pc + 2 ∧ Frame { regs := fun r => r = x } s t

/-- Add immediate: the sum modulo 256, and no flag (R121). -/
def Obligations.AddImmediateWrapsWithoutFlag : Prop :=
  ∀ (x : Reg) (nn : Byte) (s : State),
    ∃ t, exec (.addImm x nn) s = .next t ∧ (t.reg x).toNat = ((s.reg x).toNat + nn.toNat) % 256 ∧
      t.pc = s.pc + 2 ∧ Frame { regs := fun r => r = x } s t

/-- Or, and, xor: each bit of the destination, then `V[0xF] = 0` always, also as the destination (R123, R124, R125).
That the zero remains in a destination 0xF is the spec's decision D7 (log 9). -/
def Obligations.BitwiseOperationsZeroTheFlag : Prop :=
  ∀ (x y : Reg) (s : State),
    (∃ t, exec (.orReg x y) s = .next t ∧
      (x ≠ flagReg → ∀ k, (t.reg x).getLsbD k = ((s.reg x).getLsbD k || (s.reg y).getLsbD k)) ∧
      t.reg flagReg = 0 ∧ t.pc = s.pc + 2 ∧ Frame { regs := fun r => r = x ∨ r = flagReg } s t) ∧
    (∃ t, exec (.andReg x y) s = .next t ∧
      (x ≠ flagReg → ∀ k, (t.reg x).getLsbD k = ((s.reg x).getLsbD k && (s.reg y).getLsbD k)) ∧
      t.reg flagReg = 0 ∧ t.pc = s.pc + 2 ∧ Frame { regs := fun r => r = x ∨ r = flagReg } s t) ∧
    ∃ t, exec (.xorReg x y) s = .next t ∧
      (x ≠ flagReg → ∀ k, (t.reg x).getLsbD k = ((s.reg x).getLsbD k ^^ (s.reg y).getLsbD k)) ∧
      t.reg flagReg = 0 ∧ t.pc = s.pc + 2 ∧ Frame { regs := fun r => r = x ∨ r = flagReg } s t

/-- Add registers: the destination is the sum modulo 256, the flag register, when it is not the destination, 1 exactly
when the sum exceeds 255 (R126). That a destination 0xF keeps the sum is the spec's decision D7 (log 9). -/
def Obligations.AddRegistersSetsCarry : Prop :=
  ∀ (x y : Reg) (s : State),
    ∃ t, exec (.addReg x y) s = .next t ∧
      (t.reg x).toNat = ((s.reg x).toNat + (s.reg y).toNat) % 256 ∧
      (x ≠ flagReg → (t.reg flagReg).toNat = if (s.reg x).toNat + (s.reg y).toNat > 255 then 1 else 0) ∧
      t.pc = s.pc + 2 ∧ Frame { regs := fun r => r = x ∨ r = flagReg } s t

/-- Subtract and subtract-reverse: the difference modulo 256 to `V[X]`, the flag register, when it is not the
destination, 1 exactly when no borrow occurred (R127, R129). The register written by subtract-reverse is the spec's
decision D9 (log 10), a destination 0xF its decision D7 (log 9). -/
def Obligations.SubtractionsSetNoBorrow : Prop :=
  ∀ (x y : Reg) (s : State),
    (∃ t, exec (.subReg x y) s = .next t ∧
      (t.reg x).toNat = ((s.reg x).toNat + 256 - (s.reg y).toNat) % 256 ∧
      (x ≠ flagReg → (t.reg flagReg).toNat = if (s.reg x).toNat < (s.reg y).toNat then 0 else 1) ∧
      t.pc = s.pc + 2 ∧ Frame { regs := fun r => r = x ∨ r = flagReg } s t) ∧
    ∃ t, exec (.subn x y) s = .next t ∧
      (t.reg x).toNat = ((s.reg y).toNat + 256 - (s.reg x).toNat) % 256 ∧
      (x ≠ flagReg → (t.reg flagReg).toNat = if (s.reg y).toNat < (s.reg x).toNat then 0 else 1) ∧
      t.pc = s.pc + 2 ∧ Frame { regs := fun r => r = x ∨ r = flagReg } s t

/-- The shifts: `V[Y]` halved or doubled modulo 256 goes to `V[X]`, the bit shifted out to the flag register when that
is not the destination; `V[Y]` itself is not modified (R128, R130; D8). The source register is the spec's decision D8
(log 10), a destination 0xF its decision D7 (log 9). -/
def Obligations.ShiftsMoveOneBitIntoTheFlag : Prop :=
  ∀ (x y : Reg) (s : State),
    (∃ t, exec (.shr x y) s = .next t ∧
      (t.reg x).toNat = (s.reg y).toNat / 2 ∧
      (x ≠ flagReg → (t.reg flagReg).toNat = (s.reg y).toNat % 2) ∧
      t.pc = s.pc + 2 ∧ Frame { regs := fun r => r = x ∨ r = flagReg } s t) ∧
    ∃ t, exec (.shl x y) s = .next t ∧
      (t.reg x).toNat = (s.reg y).toNat * 2 % 256 ∧
      (x ≠ flagReg → (t.reg flagReg).toNat = (s.reg y).toNat / 128) ∧
      t.pc = s.pc + 2 ∧ Frame { regs := fun r => r = x ∨ r = flagReg } s t

/-! ### Index register and memory (spec/43_index_memory.md) -/

/-- Load index and index-to-font-glyph: `I = NNN`, and `I = V[X] * 5` with no reduction (R140, R143). That `V[X]`
above 15 is not reduced is the spec's decision D25 (log 14). -/
def Obligations.IndexLoadsSetI : Prop :=
  ∀ (nnn : Addr) (x : Reg) (s : State),
    (∃ t, exec (.ldI nnn) s = .next t ∧ t.i.toNat = nnn.toNat ∧ t.pc = s.pc + 2 ∧ Frame { index := true } s t) ∧
    ∃ t, exec (.ldF x) s = .next t ∧ t.i.toNat = (s.reg x).toNat * 5 ∧ t.pc = s.pc + 2 ∧ Frame { index := true } s t

/-- Add-to-index: the sum modulo 2^16, and the flag register written on every execution, 1 exactly when the exact sum
exceeds 0xFFF (R142). That an addend in `V[0xF]` is its old value is the spec's decision D7 (log 9). -/
def Obligations.AddToIndexWritesTheFlag : Prop :=
  ∀ (x : Reg) (s : State),
    ∃ t, exec (.addI x) s = .next t ∧
      t.i.toNat = (s.i.toNat + (s.reg x).toNat) % 65536 ∧
      (t.reg flagReg).toNat = (if s.i.toNat + (s.reg x).toNat > 0xFFF then 1 else 0) ∧
      t.pc = s.pc + 2 ∧ Frame { regs := fun r => r = flagReg, index := true } s t

/-- Store-digits: in bounds, the three decimal digits of `V[X]` at `I`, `I + 1`, `I + 2`, `I` unchanged; above 4095
the violation and nothing written (R144). The bound is the spec's decision D6, the freeze its decision D5 (logs 13,
1). -/
def Obligations.StoreDigitsWritesThreeDigits : Prop :=
  ∀ (x : Reg) (s : State),
    (s.mem.wf = true → s.indexed 2 ≤ 4095 → ∃ t, exec (.ldB x) s = .next t ∧
      (t.readByte (s.indexed 0)).toNat * 100 + (t.readByte (s.indexed 1)).toNat * 10 +
        (t.readByte (s.indexed 2)).toNat = (s.reg x).toNat ∧
      (t.readByte (s.indexed 1)).toNat ≤ 9 ∧ (t.readByte (s.indexed 2)).toNat ≤ 9 ∧
      t.pc = s.pc + 2 ∧ Frame { mem := fun a => s.indexed 0 ≤ a ∧ a ≤ s.indexed 2 } s t) ∧
    (s.indexed 2 > 4095 →
      exec (.ldB x) s = .next { s with fault := some (.dataOutOfBounds (s.indexed 2) s.pc (encode (.ldB x))) })

/-- Register dump: in bounds, `V[0..X]` at `I` and up, `I` past the range; above 4095 the violation and nothing
written (R145). The bound is the spec's decision D6, the freeze its decision D5 (logs 13, 1). -/
def Obligations.DumpStoresTheRegisters : Prop :=
  ∀ (x : Reg) (s : State),
    (s.mem.wf = true → s.indexed x.val ≤ 4095 → ∃ t, exec (.dump x) s = .next t ∧
      (∀ k : Reg, k ≤ x → t.readByte (s.indexed k.val) = s.reg k) ∧ t.i.toNat = s.i.toNat + x.val + 1 ∧
      t.pc = s.pc + 2 ∧ Frame { mem := fun a => s.indexed 0 ≤ a ∧ a ≤ s.indexed x.val, index := true } s t) ∧
    (s.indexed x.val > 4095 →
      exec (.dump x) s = .next { s with fault := some (.dataOutOfBounds (s.indexed x.val) s.pc (encode (.dump x))) })

/-- Register load: in bounds, memory at `I` and up to `V[0..X]`, `I` past the range; above 4095 the violation and no
register changed (R146). The bound is the spec's decision D6, the freeze its decision D5 (logs 13, 1). -/
def Obligations.LoadFillsTheRegisters : Prop :=
  ∀ (x : Reg) (s : State),
    (s.indexed x.val ≤ 4095 → ∃ t, exec (.load x) s = .next t ∧
      (∀ k : Reg, k ≤ x → t.reg k = s.readByte (s.indexed k.val)) ∧ t.i.toNat = s.i.toNat + x.val + 1 ∧
      t.pc = s.pc + 2 ∧ Frame { regs := fun r => r ≤ x, index := true } s t) ∧
    (s.indexed x.val > 4095 →
      exec (.load x) s = .next { s with fault := some (.dataOutOfBounds (s.indexed x.val) s.pc (encode (.load x))) })

/-- A dump followed by a load through the same index and range, whatever the registers hold by then, brings the
dumped registers back exactly. -/
def Obligations.DumpThenLoadRoundTrips : Prop :=
  ∀ (x : Reg) (s : State), s.mem.wf = true → s.indexed x.val ≤ 4095 →
    ∃ t, exec (.dump x) s = .next t ∧
      ∀ u : State, u.mem = t.mem → u.i = s.i →
        ∃ v, exec (.load x) u = .next v ∧ ∀ k : Reg, k ≤ x → v.reg k = s.reg k

/-- What address `a` holds once the `n` bytes `value 0` to `value (n - 1)` have been stored at `I` and up: the byte
stored there, or what it held before. -/
def Sys2Proof.Claims.afterStore (s : State) (n : Nat) (value : Nat → Byte) (a : Nat) : Byte :=
  if s.indexed 0 ≤ a ∧ a < s.indexed n then value (a - s.indexed 0) else s.readByte a

/-- A store is seen by the next fetch, with nothing in between, in each byte of the word at pc + 2: after store-digits
and after a register dump, whether the store covers both bytes, one of them or none, the word fetched is made of the
bytes just stored and, where nothing was stored, of the bytes as before (R53). It is the spec's own inference
(`[derived]`, decision D19, log 25). -/
def Obligations.StoreIsSeenByTheNextFetch : Prop :=
  ∀ (x : Reg) (s : State), s.mem.wf = true → (s.pc + 2).toNat < s.params.fetchLimit.val →
    (s.indexed 2 ≤ 4095 → ∃ t, exec (.ldB x) s = .next t ∧
      let byte := afterStore s 3 fun k => BitVec.ofNat 8 ((s.reg x).toNat / 10 ^ (2 - k) % 10)
      t.fetch = .ok (wordOfBytes (byte (s.pc + 2).toNat) (byte ((s.pc + 2).toNat + 1)))) ∧
    (s.indexed x.val ≤ 4095 → ∃ t, exec (.dump x) s = .next t ∧
      let byte := afterStore s (x.val + 1) fun k => s.reg (Fin.ofNat 16 k)
      t.fetch = .ok (wordOfBytes (byte (s.pc + 2).toNat) (byte ((s.pc + 2).toNat + 1))))

/-! ### Display (spec/44_display.md) -/

/-- Clear screen: all 2048 cells 0, redraw set, the flag register untouched (R160). That redraw is set also when no
cell changed is the spec's choice C6 (log 23). -/
def Obligations.ClearScreenZeroesEveryCell : Prop :=
  ∀ s : State, ∃ t, exec .cls s = .next t ∧ (∀ c, Display.cell t.disp c = false) ∧ t.redraw = true ∧
    t.pc = s.pc + 2 ∧ Frame { display := true } s t

/-- The sprite of `n` rows at `I`, with its origin at (`V[X]`, `V[Y]`), has a set bit whose target is cell `c`
(R161). -/
def Sys2Proof.Claims.Covers (s : State) (x y : Reg) (n : Nat) (c : Cell) : Prop :=
  ∃ row col, row < n ∧ col < 8 ∧ (s.readByte (s.i.toNat + row)).getLsbD (7 - col) = true ∧
    c.val = (((s.reg x).toNat + col) + ((s.reg y).toNat + row) * 64) % 2048

/-- Draw sprite: in bounds, a cell the sprite covers is inverted and every other cell kept; the flag register is 1
exactly when some covered cell was 1, else 0; redraw is set; with no rows nothing is read. Above 4095 the violation
(R161, R162). Zero rows, an origin in 0xF and the bound are the spec's decisions D11, D7, D6 (logs 12, 9, 13), redraw
on every execution and the one reduction of the cell index its choices C6 and C10 (logs 23, 24). -/
def Obligations.DrawSpriteXorsTheCoveredCells : Prop :=
  ∀ (x y : Reg) (n : Nat) (s : State), n < 16 →
    (n = 0 ∨ s.indexed (n - 1) ≤ 4095 → ∃ t, exec (.drw x y n) s = .next t ∧
      (∀ c, Covers s x y n c → Display.cell t.disp c = !Display.cell s.disp c) ∧
      (∀ c, ¬ Covers s x y n c → Display.cell t.disp c = Display.cell s.disp c) ∧
      ((∃ c, Covers s x y n c ∧ Display.cell s.disp c = true) → t.reg flagReg = 1) ∧
      ((∀ c, Covers s x y n c → Display.cell s.disp c = false) → t.reg flagReg = 0) ∧
      t.redraw = true ∧ t.pc = s.pc + 2 ∧ Frame { regs := fun r => r = flagReg, display := true } s t) ∧
    (n ≠ 0 → s.indexed (n - 1) > 4095 →
      exec (.drw x y n) s =
        .next { s with fault := some (.dataOutOfBounds (s.indexed (n - 1)) s.pc (encode (.drw x y n))) })

/-- Drawing the same sprite twice at the same origin restores the display; on a clear buffer the first draw sets the
flag register to 0, and the second to 1 exactly when the sprite has a set bit. That zero rows may be drawn is the
spec's decision D11 (log 12). -/
def Obligations.DrawingTwiceRestoresTheDisplay : Prop :=
  ∀ (x y : Reg) (n : Nat) (s : State), n < 16 → (n = 0 ∨ s.indexed (n - 1) ≤ 4095) → x ≠ flagReg → y ≠ flagReg →
    ∃ t u, exec (.drw x y n) s = .next t ∧ exec (.drw x y n) t = .next u ∧ u.disp = s.disp ∧
      ((∀ c, Display.cell s.disp c = false) →
        t.reg flagReg = 0 ∧ (u.reg flagReg = 1 ↔ ∃ c, Covers s x y n c))

/-! ### Keys, timers, random (spec/45_keys_timers_random.md) -/

/-- The key skips: on the state of the key `V[X]` names; above 15 KeyIndexOutOfRange is latched and nothing else
changes (R170, R171, R172). The violation is the spec's decision D12 (log 13). -/
def Obligations.KeySkipsTestTheNamedKey : Prop :=
  ∀ (x : Reg) (s : State),
    (∀ k : Key, (s.reg x).toNat = k.val →
      (∃ t, exec (.skp x) s = .next t ∧
        t.pc = (if s.key[k.val] = true then s.pc + 4 else s.pc + 2) ∧ Frame {} s t) ∧
      ∃ t, exec (.sknp x) s = .next t ∧
        t.pc = (if s.key[k.val] = false then s.pc + 4 else s.pc + 2) ∧ Frame {} s t) ∧
    ((s.reg x).toNat > 15 →
      exec (.skp x) s = .next { s with fault := some (.keyIndexOutOfRange (s.reg x) s.pc (encode (.skp x))) } ∧
      exec (.sknp x) s = .next { s with fault := some (.keyIndexOutOfRange (s.reg x) s.pc (encode (.sknp x))) })

/-- Wait-for-key: with no key down nothing changes and the pc stays; otherwise the index of some key that is down, the
only one if there is one, goes to `V[X]` and the pc advances (R174). Which of several keys is free: the spec's
decision D13 (log 6). -/
def Obligations.WaitForKeyStallsOrTakesADownKey : Prop :=
  ∀ (x : Reg) (s : State),
    ((∀ k : Key, s.key[k.val] = false) → exec (.ldVxK x) s = .next s) ∧
    ((∃ k : Key, s.key[k.val] = true) →
      ∃ t, ∃ k : Key, exec (.ldVxK x) s = .next t ∧ s.key[k.val] = true ∧ (t.reg x).toNat = k.val ∧
        t.pc = s.pc + 2 ∧ Frame { regs := fun r => r = x, draws := true } s t)

/-- The timer moves as operations, before the step's tick: `V[X] = DT`, `DT = V[X]`, `ST = V[X]`. -/
def Obligations.TimerMovesCopy : Prop :=
  ∀ (x : Reg) (s : State),
    (∃ t, exec (.ldVxDt x) s = .next t ∧ t.reg x = s.dt ∧ t.pc = s.pc + 2 ∧ Frame { regs := fun r => r = x } s t) ∧
    (∃ t, exec (.ldDtVx x) s = .next t ∧ t.dt = s.reg x ∧ t.pc = s.pc + 2 ∧ Frame { delay := true } s t) ∧
    ∃ t, exec (.ldStVx x) s = .next t ∧ t.st = s.reg x ∧ t.pc = s.pc + 2 ∧ Frame { sound := true } s t

/-- The timer moves as whole steps: the value read is `DT` before the tick; a timer just set is ticked in the same
step under PER_STEP (`ST` to 0 under FORCE_ZERO), and not under EXTERNAL (R173, R175, R176). -/
def Obligations.TimerStepsTickAfterTheMove : Prop :=
  ∀ (x : Reg) (s : State), s.fault = none →
    (s.fetch = .ok (encode (.ldVxDt x)) → ∃ t, step s = .next t ∧ t.reg x = s.dt ∧ t.pc = s.pc + 2 ∧
      (s.params.tickMode = .perStep → t.dt.toNat = s.dt.toNat - 1) ∧
      (s.params.tickMode = .external → t.dt = s.dt)) ∧
    (s.fetch = .ok (encode (.ldDtVx x)) → ∃ t, step s = .next t ∧ t.pc = s.pc + 2 ∧
      (s.params.tickMode = .perStep → t.dt.toNat = (s.reg x).toNat - 1) ∧
      (s.params.tickMode = .external → t.dt = s.reg x)) ∧
    (s.fetch = .ok (encode (.ldStVx x)) → ∃ t, step s = .next t ∧ t.pc = s.pc + 2 ∧
      (s.params.tickMode = .perStep → s.params.soundPolicy = .forceZero → t.st = 0) ∧
      (s.params.tickMode = .perStep → s.params.soundPolicy = .decrement → t.st.toNat = (s.reg x).toNat - 1) ∧
      (s.params.tickMode = .external → t.st = s.reg x))

/-- Random-and-mask: the free byte of this draw masked by the immediate, or by the fixed mask, by policy; the next
draw is a fresh one; every bit that is 0 in the mask is 0 (R178). The free byte and the mask source are the spec's
decision D16, the count of draws is the model's (logs 2, 4, 5). -/
def Obligations.RandomAndMaskTakesAFreshMaskedByte : Prop :=
  ∀ (x : Reg) (nn : Byte) (s : State),
    ∃ t, exec (.rnd x nn) s = .next t ∧
      (s.params.maskSource = .immediate → t.reg x = Config.freeByte s.draws &&& nn ∧ (nn = 0 → t.reg x = 0)) ∧
      (s.params.maskSource = .fixed → t.reg x = Config.freeByte s.draws &&& Config.randFixedMask) ∧
      t.draws = s.draws + 1 ∧ t.pc = s.pc + 2 ∧ Frame { regs := fun r => r = x, draws := true } s t

/-! ### Reset, load and the host (spec/70_reset_and_hazards.md) -/

/-- The state after reset (R30); the font bytes are the open parameter. The rule marks `I`, `sp` and `fault` as its
own inferences or decisions; FONT's values are open (log 3). -/
def Obligations.ResetLeavesTheStatedState : Prop :=
  (∀ r, State.reset.reg r = 0) ∧ State.reset.i = 0 ∧ State.reset.pc = 0x200 ∧
  (∀ k : Fin 16, State.reset.stack[k.val] = 0) ∧ State.reset.sp = 0 ∧
  (∀ a, a < 80 → State.reset.readByte a = Config.font a) ∧
  (∀ a, 80 ≤ a → a < 4096 → State.reset.readByte a = 0) ∧
  State.reset.dt = 0 ∧ State.reset.st = 0 ∧ (∀ c, Display.cell State.reset.disp c = false) ∧
  (∀ k : Key, State.reset.key[k.val] = false) ∧ State.reset.redraw = false ∧ State.reset.fault = none

/-- The reset event leaves the reset state whatever the state was, the faulted one included, and twice is once
(R230, R231). The policies and the count of free values go on, and a condition report or trace record of
before the reset is discarded (the model's choice, logs 2, 5 and 7). -/
def Obligations.ResetEventIsFreshAndIdempotent : Prop :=
  ∀ s : State,
    (∃ t, hostEvent .reset s = some t ∧ t = { State.reset with params := s.params, draws := s.draws } ∧
      hostEvent .reset t = some t) ∧
    ∀ s' : State, s'.params = s.params → s'.draws = s.draws → hostEvent .reset s' = hostEvent .reset s

/-- A load of at most 3584 bytes copies them to 0x200 and up and changes nothing else; a longer one changes no state
and reports CapacityExceeded; a load that cannot be opened changes no state and reports IOUnavailable (R235, R236,
R237). That a load is allowed at any time and that a failed one changes nothing is the spec's decision D24 (log
17). -/
def Obligations.LoadCopiesTheRomOrChangesNothing : Prop :=
  ∀ (s : State) (bytes : List Byte),
    (s.mem.wf = true → bytes.length ≤ 3584 → ∃ t, hostEvent (.load bytes) s = some t ∧
      (∀ j b, bytes[j]? = some b → t.readByte (0x200 + j) = b) ∧
      (∀ a, a < 0x200 ∨ 0x200 + bytes.length ≤ a → t.readByte a = s.readByte a) ∧
      t = { s with mem := t.mem, report := none }) ∧
    (bytes.length > 3584 →
      hostEvent (.load bytes) s = some { s with report := some (.capacityExceeded bytes.length) }) ∧
    hostEvent .loadUnavailable s = some { s with report := some .ioUnavailable }

/-- A key event sets one key; the tick event is a move only with EXTERNAL, and then one tick, or nothing while `fault`
is set; a redraw clear clears redraw: nothing else changes (R238, R239, R240). The tick event's two restrictions are
the spec's decision D14 and the model's form of it (log 18). -/
def Obligations.HostEventsChangeOnlyTheirOwnState : Prop :=
  ∀ s : State,
    (∀ (k : Key) (down : Bool), ∃ t, hostEvent (.setKey k down) s = some t ∧
      (∀ j : Key, t.key[j.val] = if j = k then down else s.key[j.val]) ∧ t = { s with key := t.key }) ∧
    (s.params.tickMode = .perStep → hostEvent .tick s = none) ∧
    (s.params.tickMode = .external → s.fault = none → hostEvent .tick s = some s.tick) ∧
    (s.params.tickMode = .external → s.fault ≠ none → hostEvent .tick s = some s) ∧
    hostEvent .clearRedraw s = some { s with redraw := false }

/-- After the boot order the machine stands at 0x200 with the ROM in memory and every register zero; each key is as
the last setting of it left it, and up when none names it; the first fetch is the ROM's first word, high byte first
(R242). That a program comes to run this way is the model's reading (log 20, DEDUCED), and that each key is an event
of its own is log 18. -/
def Obligations.BootOrderReachesTheFirstInstruction : Prop :=
  ∀ (s : State) (hi lo : Byte) (rest : List Byte) (keys : List (Key × Bool)),
    rest.length ≤ 3582 → 0x200 < s.params.fetchLimit.val →
    ∃ t, runMoves (bootMoves (hi :: lo :: rest) keys) s = some t ∧
      t.pc = 0x200 ∧ t.fault = none ∧ t.sp = 0 ∧ t.i = 0 ∧ t.dt = 0 ∧ t.st = 0 ∧ (∀ r, t.reg r = 0) ∧
      (∀ j b, (hi :: lo :: rest)[j]? = some b → t.readByte (0x200 + j) = b) ∧
      (∀ (k : Key) (down : Bool) (before later : List (Key × Bool)),
        keys = before ++ (k, down) :: later → (∀ e ∈ later, e.1 ≠ k) → t.key[k.val] = down) ∧
      (∀ k : Key, (∀ e ∈ keys, e.1 ≠ k) → t.key[k.val] = false) ∧
      t.fetch = .ok (wordOfBytes hi lo)

/-- A self-jump with both timers 0 is a fixed point: only the trace record and the report are given out anew (R243).
That this ends a run is the spec's decision D22; the two outputs are the model's (log 7). -/
def Obligations.SelfJumpIsAFixedPoint : Prop :=
  ∀ s : State, Safety.AtSelfJump s →
    ∃ t, step s = .next t ∧ t = { s with report := none, trace := t.trace } ∧ Safety.AtSelfJump t
end

