-- ==== Sys2Proof/Laws/State.lean ====
section
/-! SUPPORT. One lemma per field per update of the state, so that no later proof unfolds a record update; and what
reading a register gives after each update. -/

namespace Sys2Proof.Machine

variable (s : State)

/-! ### State.setReg -/

@[simp] theorem State.setReg_v (x : Reg) (b : Byte) : (s.setReg x b).v = s.v.set x.val b := rfl
@[simp] theorem State.setReg_i (x : Reg) (b : Byte) : (s.setReg x b).i = s.i := rfl
@[simp] theorem State.setReg_pc (x : Reg) (b : Byte) : (s.setReg x b).pc = s.pc := rfl
@[simp] theorem State.setReg_stack (x : Reg) (b : Byte) : (s.setReg x b).stack = s.stack := rfl
@[simp] theorem State.setReg_sp (x : Reg) (b : Byte) : (s.setReg x b).sp = s.sp := rfl
@[simp] theorem State.setReg_mem (x : Reg) (b : Byte) : (s.setReg x b).mem = s.mem := rfl
@[simp] theorem State.setReg_dt (x : Reg) (b : Byte) : (s.setReg x b).dt = s.dt := rfl
@[simp] theorem State.setReg_st (x : Reg) (b : Byte) : (s.setReg x b).st = s.st := rfl
@[simp] theorem State.setReg_disp (x : Reg) (b : Byte) : (s.setReg x b).disp = s.disp := rfl
@[simp] theorem State.setReg_key (x : Reg) (b : Byte) : (s.setReg x b).key = s.key := rfl
@[simp] theorem State.setReg_redraw (x : Reg) (b : Byte) : (s.setReg x b).redraw = s.redraw := rfl
@[simp] theorem State.setReg_fault (x : Reg) (b : Byte) : (s.setReg x b).fault = s.fault := rfl
@[simp] theorem State.setReg_params (x : Reg) (b : Byte) : (s.setReg x b).params = s.params := rfl
@[simp] theorem State.setReg_draws (x : Reg) (b : Byte) : (s.setReg x b).draws = s.draws := rfl
@[simp] theorem State.setReg_report (x : Reg) (b : Byte) : (s.setReg x b).report = s.report := rfl
@[simp] theorem State.setReg_trace (x : Reg) (b : Byte) : (s.setReg x b).trace = s.trace := rfl

/-! ### State.setFlag -/

@[simp] theorem State.setFlag_v (f : Bool) : (s.setFlag f).v = s.v.set 15 (flagByte f) := rfl
@[simp] theorem State.setFlag_i (f : Bool) : (s.setFlag f).i = s.i := rfl
@[simp] theorem State.setFlag_pc (f : Bool) : (s.setFlag f).pc = s.pc := rfl
@[simp] theorem State.setFlag_stack (f : Bool) : (s.setFlag f).stack = s.stack := rfl
@[simp] theorem State.setFlag_sp (f : Bool) : (s.setFlag f).sp = s.sp := rfl
@[simp] theorem State.setFlag_mem (f : Bool) : (s.setFlag f).mem = s.mem := rfl
@[simp] theorem State.setFlag_dt (f : Bool) : (s.setFlag f).dt = s.dt := rfl
@[simp] theorem State.setFlag_st (f : Bool) : (s.setFlag f).st = s.st := rfl
@[simp] theorem State.setFlag_disp (f : Bool) : (s.setFlag f).disp = s.disp := rfl
@[simp] theorem State.setFlag_key (f : Bool) : (s.setFlag f).key = s.key := rfl
@[simp] theorem State.setFlag_redraw (f : Bool) : (s.setFlag f).redraw = s.redraw := rfl
@[simp] theorem State.setFlag_fault (f : Bool) : (s.setFlag f).fault = s.fault := rfl
@[simp] theorem State.setFlag_params (f : Bool) : (s.setFlag f).params = s.params := rfl
@[simp] theorem State.setFlag_draws (f : Bool) : (s.setFlag f).draws = s.draws := rfl
@[simp] theorem State.setFlag_report (f : Bool) : (s.setFlag f).report = s.report := rfl
@[simp] theorem State.setFlag_trace (f : Bool) : (s.setFlag f).trace = s.trace := rfl

/-! ### State.setI -/

@[simp] theorem State.setI_v (a : Word) : (s.setI a).v = s.v := rfl
@[simp] theorem State.setI_i (a : Word) : (s.setI a).i = a := rfl
@[simp] theorem State.setI_pc (a : Word) : (s.setI a).pc = s.pc := rfl
@[simp] theorem State.setI_stack (a : Word) : (s.setI a).stack = s.stack := rfl
@[simp] theorem State.setI_sp (a : Word) : (s.setI a).sp = s.sp := rfl
@[simp] theorem State.setI_mem (a : Word) : (s.setI a).mem = s.mem := rfl
@[simp] theorem State.setI_dt (a : Word) : (s.setI a).dt = s.dt := rfl
@[simp] theorem State.setI_st (a : Word) : (s.setI a).st = s.st := rfl
@[simp] theorem State.setI_disp (a : Word) : (s.setI a).disp = s.disp := rfl
@[simp] theorem State.setI_key (a : Word) : (s.setI a).key = s.key := rfl
@[simp] theorem State.setI_redraw (a : Word) : (s.setI a).redraw = s.redraw := rfl
@[simp] theorem State.setI_fault (a : Word) : (s.setI a).fault = s.fault := rfl
@[simp] theorem State.setI_params (a : Word) : (s.setI a).params = s.params := rfl
@[simp] theorem State.setI_draws (a : Word) : (s.setI a).draws = s.draws := rfl
@[simp] theorem State.setI_report (a : Word) : (s.setI a).report = s.report := rfl
@[simp] theorem State.setI_trace (a : Word) : (s.setI a).trace = s.trace := rfl

/-! ### State.setPc -/

@[simp] theorem State.setPc_v (a : Word) : (s.setPc a).v = s.v := rfl
@[simp] theorem State.setPc_i (a : Word) : (s.setPc a).i = s.i := rfl
@[simp] theorem State.setPc_pc (a : Word) : (s.setPc a).pc = a := rfl
@[simp] theorem State.setPc_stack (a : Word) : (s.setPc a).stack = s.stack := rfl
@[simp] theorem State.setPc_sp (a : Word) : (s.setPc a).sp = s.sp := rfl
@[simp] theorem State.setPc_mem (a : Word) : (s.setPc a).mem = s.mem := rfl
@[simp] theorem State.setPc_dt (a : Word) : (s.setPc a).dt = s.dt := rfl
@[simp] theorem State.setPc_st (a : Word) : (s.setPc a).st = s.st := rfl
@[simp] theorem State.setPc_disp (a : Word) : (s.setPc a).disp = s.disp := rfl
@[simp] theorem State.setPc_key (a : Word) : (s.setPc a).key = s.key := rfl
@[simp] theorem State.setPc_redraw (a : Word) : (s.setPc a).redraw = s.redraw := rfl
@[simp] theorem State.setPc_fault (a : Word) : (s.setPc a).fault = s.fault := rfl
@[simp] theorem State.setPc_params (a : Word) : (s.setPc a).params = s.params := rfl
@[simp] theorem State.setPc_draws (a : Word) : (s.setPc a).draws = s.draws := rfl
@[simp] theorem State.setPc_report (a : Word) : (s.setPc a).report = s.report := rfl
@[simp] theorem State.setPc_trace (a : Word) : (s.setPc a).trace = s.trace := rfl

/-! ### State.advance -/

@[simp] theorem State.advance_v : (s.advance).v = s.v := rfl
@[simp] theorem State.advance_i : (s.advance).i = s.i := rfl
@[simp] theorem State.advance_pc : (s.advance).pc = s.pc + 2 := rfl
@[simp] theorem State.advance_stack : (s.advance).stack = s.stack := rfl
@[simp] theorem State.advance_sp : (s.advance).sp = s.sp := rfl
@[simp] theorem State.advance_mem : (s.advance).mem = s.mem := rfl
@[simp] theorem State.advance_dt : (s.advance).dt = s.dt := rfl
@[simp] theorem State.advance_st : (s.advance).st = s.st := rfl
@[simp] theorem State.advance_disp : (s.advance).disp = s.disp := rfl
@[simp] theorem State.advance_key : (s.advance).key = s.key := rfl
@[simp] theorem State.advance_redraw : (s.advance).redraw = s.redraw := rfl
@[simp] theorem State.advance_fault : (s.advance).fault = s.fault := rfl
@[simp] theorem State.advance_params : (s.advance).params = s.params := rfl
@[simp] theorem State.advance_draws : (s.advance).draws = s.draws := rfl
@[simp] theorem State.advance_report : (s.advance).report = s.report := rfl
@[simp] theorem State.advance_trace : (s.advance).trace = s.trace := rfl

/-! ### State.writeBytes -/

@[simp] theorem State.writeBytes_v (a : Nat) (bs : List Byte) : (s.writeBytes a bs).v = s.v := rfl
@[simp] theorem State.writeBytes_i (a : Nat) (bs : List Byte) : (s.writeBytes a bs).i = s.i := rfl
@[simp] theorem State.writeBytes_pc (a : Nat) (bs : List Byte) : (s.writeBytes a bs).pc = s.pc := rfl
@[simp] theorem State.writeBytes_stack (a : Nat) (bs : List Byte) : (s.writeBytes a bs).stack = s.stack := rfl
@[simp] theorem State.writeBytes_sp (a : Nat) (bs : List Byte) : (s.writeBytes a bs).sp = s.sp := rfl
@[simp] theorem State.writeBytes_mem (a : Nat) (bs : List Byte) : (s.writeBytes a bs).mem = Memory.writeAll s.mem a bs := rfl
@[simp] theorem State.writeBytes_dt (a : Nat) (bs : List Byte) : (s.writeBytes a bs).dt = s.dt := rfl
@[simp] theorem State.writeBytes_st (a : Nat) (bs : List Byte) : (s.writeBytes a bs).st = s.st := rfl
@[simp] theorem State.writeBytes_disp (a : Nat) (bs : List Byte) : (s.writeBytes a bs).disp = s.disp := rfl
@[simp] theorem State.writeBytes_key (a : Nat) (bs : List Byte) : (s.writeBytes a bs).key = s.key := rfl
@[simp] theorem State.writeBytes_redraw (a : Nat) (bs : List Byte) : (s.writeBytes a bs).redraw = s.redraw := rfl
@[simp] theorem State.writeBytes_fault (a : Nat) (bs : List Byte) : (s.writeBytes a bs).fault = s.fault := rfl
@[simp] theorem State.writeBytes_params (a : Nat) (bs : List Byte) : (s.writeBytes a bs).params = s.params := rfl
@[simp] theorem State.writeBytes_draws (a : Nat) (bs : List Byte) : (s.writeBytes a bs).draws = s.draws := rfl
@[simp] theorem State.writeBytes_report (a : Nat) (bs : List Byte) : (s.writeBytes a bs).report = s.report := rfl
@[simp] theorem State.writeBytes_trace (a : Nat) (bs : List Byte) : (s.writeBytes a bs).trace = s.trace := rfl

/-! ### State.redrawWith -/

@[simp] theorem State.redrawWith_v (d : Display) : (s.redrawWith d).v = s.v := rfl
@[simp] theorem State.redrawWith_i (d : Display) : (s.redrawWith d).i = s.i := rfl
@[simp] theorem State.redrawWith_pc (d : Display) : (s.redrawWith d).pc = s.pc := rfl
@[simp] theorem State.redrawWith_stack (d : Display) : (s.redrawWith d).stack = s.stack := rfl
@[simp] theorem State.redrawWith_sp (d : Display) : (s.redrawWith d).sp = s.sp := rfl
@[simp] theorem State.redrawWith_mem (d : Display) : (s.redrawWith d).mem = s.mem := rfl
@[simp] theorem State.redrawWith_dt (d : Display) : (s.redrawWith d).dt = s.dt := rfl
@[simp] theorem State.redrawWith_st (d : Display) : (s.redrawWith d).st = s.st := rfl
@[simp] theorem State.redrawWith_disp (d : Display) : (s.redrawWith d).disp = d := rfl
@[simp] theorem State.redrawWith_key (d : Display) : (s.redrawWith d).key = s.key := rfl
@[simp] theorem State.redrawWith_redraw (d : Display) : (s.redrawWith d).redraw = true := rfl
@[simp] theorem State.redrawWith_fault (d : Display) : (s.redrawWith d).fault = s.fault := rfl
@[simp] theorem State.redrawWith_params (d : Display) : (s.redrawWith d).params = s.params := rfl
@[simp] theorem State.redrawWith_draws (d : Display) : (s.redrawWith d).draws = s.draws := rfl
@[simp] theorem State.redrawWith_report (d : Display) : (s.redrawWith d).report = s.report := rfl
@[simp] theorem State.redrawWith_trace (d : Display) : (s.redrawWith d).trace = s.trace := rfl

/-! ### State.takeDraw -/

@[simp] theorem State.takeDraw_v : (s.takeDraw).v = s.v := rfl
@[simp] theorem State.takeDraw_i : (s.takeDraw).i = s.i := rfl
@[simp] theorem State.takeDraw_pc : (s.takeDraw).pc = s.pc := rfl
@[simp] theorem State.takeDraw_stack : (s.takeDraw).stack = s.stack := rfl
@[simp] theorem State.takeDraw_sp : (s.takeDraw).sp = s.sp := rfl
@[simp] theorem State.takeDraw_mem : (s.takeDraw).mem = s.mem := rfl
@[simp] theorem State.takeDraw_dt : (s.takeDraw).dt = s.dt := rfl
@[simp] theorem State.takeDraw_st : (s.takeDraw).st = s.st := rfl
@[simp] theorem State.takeDraw_disp : (s.takeDraw).disp = s.disp := rfl
@[simp] theorem State.takeDraw_key : (s.takeDraw).key = s.key := rfl
@[simp] theorem State.takeDraw_redraw : (s.takeDraw).redraw = s.redraw := rfl
@[simp] theorem State.takeDraw_fault : (s.takeDraw).fault = s.fault := rfl
@[simp] theorem State.takeDraw_params : (s.takeDraw).params = s.params := rfl
@[simp] theorem State.takeDraw_draws : (s.takeDraw).draws = s.draws + 1 := rfl
@[simp] theorem State.takeDraw_report : (s.takeDraw).report = s.report := rfl
@[simp] theorem State.takeDraw_trace : (s.takeDraw).trace = s.trace := rfl

/-! ### State.setDt -/

@[simp] theorem State.setDt_v (b : Byte) : (s.setDt b).v = s.v := rfl
@[simp] theorem State.setDt_i (b : Byte) : (s.setDt b).i = s.i := rfl
@[simp] theorem State.setDt_pc (b : Byte) : (s.setDt b).pc = s.pc := rfl
@[simp] theorem State.setDt_stack (b : Byte) : (s.setDt b).stack = s.stack := rfl
@[simp] theorem State.setDt_sp (b : Byte) : (s.setDt b).sp = s.sp := rfl
@[simp] theorem State.setDt_mem (b : Byte) : (s.setDt b).mem = s.mem := rfl
@[simp] theorem State.setDt_dt (b : Byte) : (s.setDt b).dt = b := rfl
@[simp] theorem State.setDt_st (b : Byte) : (s.setDt b).st = s.st := rfl
@[simp] theorem State.setDt_disp (b : Byte) : (s.setDt b).disp = s.disp := rfl
@[simp] theorem State.setDt_key (b : Byte) : (s.setDt b).key = s.key := rfl
@[simp] theorem State.setDt_redraw (b : Byte) : (s.setDt b).redraw = s.redraw := rfl
@[simp] theorem State.setDt_fault (b : Byte) : (s.setDt b).fault = s.fault := rfl
@[simp] theorem State.setDt_params (b : Byte) : (s.setDt b).params = s.params := rfl
@[simp] theorem State.setDt_draws (b : Byte) : (s.setDt b).draws = s.draws := rfl
@[simp] theorem State.setDt_report (b : Byte) : (s.setDt b).report = s.report := rfl
@[simp] theorem State.setDt_trace (b : Byte) : (s.setDt b).trace = s.trace := rfl

/-! ### State.setSt -/

@[simp] theorem State.setSt_v (b : Byte) : (s.setSt b).v = s.v := rfl
@[simp] theorem State.setSt_i (b : Byte) : (s.setSt b).i = s.i := rfl
@[simp] theorem State.setSt_pc (b : Byte) : (s.setSt b).pc = s.pc := rfl
@[simp] theorem State.setSt_stack (b : Byte) : (s.setSt b).stack = s.stack := rfl
@[simp] theorem State.setSt_sp (b : Byte) : (s.setSt b).sp = s.sp := rfl
@[simp] theorem State.setSt_mem (b : Byte) : (s.setSt b).mem = s.mem := rfl
@[simp] theorem State.setSt_dt (b : Byte) : (s.setSt b).dt = s.dt := rfl
@[simp] theorem State.setSt_st (b : Byte) : (s.setSt b).st = b := rfl
@[simp] theorem State.setSt_disp (b : Byte) : (s.setSt b).disp = s.disp := rfl
@[simp] theorem State.setSt_key (b : Byte) : (s.setSt b).key = s.key := rfl
@[simp] theorem State.setSt_redraw (b : Byte) : (s.setSt b).redraw = s.redraw := rfl
@[simp] theorem State.setSt_fault (b : Byte) : (s.setSt b).fault = s.fault := rfl
@[simp] theorem State.setSt_params (b : Byte) : (s.setSt b).params = s.params := rfl
@[simp] theorem State.setSt_draws (b : Byte) : (s.setSt b).draws = s.draws := rfl
@[simp] theorem State.setSt_report (b : Byte) : (s.setSt b).report = s.report := rfl
@[simp] theorem State.setSt_trace (b : Byte) : (s.setSt b).trace = s.trace := rfl

/-! ### State.tick -/

@[simp] theorem State.tick_v : (s.tick).v = s.v := rfl
@[simp] theorem State.tick_i : (s.tick).i = s.i := rfl
@[simp] theorem State.tick_pc : (s.tick).pc = s.pc := rfl
@[simp] theorem State.tick_stack : (s.tick).stack = s.stack := rfl
@[simp] theorem State.tick_sp : (s.tick).sp = s.sp := rfl
@[simp] theorem State.tick_mem : (s.tick).mem = s.mem := rfl
@[simp] theorem State.tick_dt : (s.tick).dt = lowered s.dt := rfl
@[simp] theorem State.tick_st : (s.tick).st = tickedSt s.params.soundPolicy s.st := rfl
@[simp] theorem State.tick_disp : (s.tick).disp = s.disp := rfl
@[simp] theorem State.tick_key : (s.tick).key = s.key := rfl
@[simp] theorem State.tick_redraw : (s.tick).redraw = s.redraw := rfl
@[simp] theorem State.tick_fault : (s.tick).fault = s.fault := rfl
@[simp] theorem State.tick_params : (s.tick).params = s.params := rfl
@[simp] theorem State.tick_draws : (s.tick).draws = s.draws := rfl
@[simp] theorem State.tick_report : (s.tick).report = s.report := rfl
@[simp] theorem State.tick_trace : (s.tick).trace = s.trace := rfl

/-! ### State.loadRegs -/

@[simp] theorem State.loadRegs_i (x : Reg) : (s.loadRegs x).i = s.i := rfl
@[simp] theorem State.loadRegs_pc (x : Reg) : (s.loadRegs x).pc = s.pc := rfl
@[simp] theorem State.loadRegs_stack (x : Reg) : (s.loadRegs x).stack = s.stack := rfl
@[simp] theorem State.loadRegs_sp (x : Reg) : (s.loadRegs x).sp = s.sp := rfl
@[simp] theorem State.loadRegs_mem (x : Reg) : (s.loadRegs x).mem = s.mem := rfl
@[simp] theorem State.loadRegs_dt (x : Reg) : (s.loadRegs x).dt = s.dt := rfl
@[simp] theorem State.loadRegs_st (x : Reg) : (s.loadRegs x).st = s.st := rfl
@[simp] theorem State.loadRegs_disp (x : Reg) : (s.loadRegs x).disp = s.disp := rfl
@[simp] theorem State.loadRegs_key (x : Reg) : (s.loadRegs x).key = s.key := rfl
@[simp] theorem State.loadRegs_redraw (x : Reg) : (s.loadRegs x).redraw = s.redraw := rfl
@[simp] theorem State.loadRegs_fault (x : Reg) : (s.loadRegs x).fault = s.fault := rfl
@[simp] theorem State.loadRegs_params (x : Reg) : (s.loadRegs x).params = s.params := rfl
@[simp] theorem State.loadRegs_draws (x : Reg) : (s.loadRegs x).draws = s.draws := rfl
@[simp] theorem State.loadRegs_report (x : Reg) : (s.loadRegs x).report = s.report := rfl
@[simp] theorem State.loadRegs_trace (x : Reg) : (s.loadRegs x).trace = s.trace := rfl

/-! ### Reading a register -/

@[simp] theorem State.setReg_reg (x : Reg) (b : Byte) (y : Reg) :
    (s.setReg x b).reg y = if y = x then b else s.reg y := by
  simp only [State.reg, State.setReg_v, Vector.getElem_set]
  by_cases h : y = x
  · simp [h]
  · have : x.val ≠ y.val := fun e => h (Fin.ext e.symm)
    simp [h, this]

@[simp] theorem State.setFlag_reg (f : Bool) (y : Reg) :
    (s.setFlag f).reg y = if y = flagReg then flagByte f else s.reg y := State.setReg_reg s flagReg (flagByte f) y

@[simp] theorem State.loadRegs_reg (x y : Reg) :
    (s.loadRegs x).reg y = if y ≤ x then s.readByte (s.indexed y.val) else s.reg y := by
  simp [State.loadRegs, State.reg]

@[simp] theorem State.setI_reg (a : Word) (y : Reg) : (s.setI a).reg y = s.reg y := rfl
@[simp] theorem State.setPc_reg (a : Word) (y : Reg) : (s.setPc a).reg y = s.reg y := rfl
@[simp] theorem State.advance_reg (y : Reg) : (s.advance).reg y = s.reg y := rfl
@[simp] theorem State.writeBytes_reg (a : Nat) (bs : List Byte) (y : Reg) : (s.writeBytes a bs).reg y = s.reg y := rfl
@[simp] theorem State.redrawWith_reg (d : Display) (y : Reg) : (s.redrawWith d).reg y = s.reg y := rfl
@[simp] theorem State.takeDraw_reg (y : Reg) : (s.takeDraw).reg y = s.reg y := rfl
@[simp] theorem State.setDt_reg (b : Byte) (y : Reg) : (s.setDt b).reg y = s.reg y := rfl
@[simp] theorem State.setSt_reg (b : Byte) (y : Reg) : (s.setSt b).reg y = s.reg y := rfl
@[simp] theorem State.tick_reg (y : Reg) : (s.tick).reg y = s.reg y := rfl

/-! ### Reading memory -/

@[simp] theorem State.setReg_readByte (x : Reg) (b : Byte) (k : Nat) : (s.setReg x b).readByte k = s.readByte k := rfl
@[simp] theorem State.setFlag_readByte (f : Bool) (k : Nat) : (s.setFlag f).readByte k = s.readByte k := rfl
@[simp] theorem State.setI_readByte (a : Word) (k : Nat) : (s.setI a).readByte k = s.readByte k := rfl
@[simp] theorem State.setPc_readByte (a : Word) (k : Nat) : (s.setPc a).readByte k = s.readByte k := rfl
@[simp] theorem State.advance_readByte (k : Nat) : (s.advance).readByte k = s.readByte k := rfl
@[simp] theorem State.redrawWith_readByte (d : Display) (k : Nat) : (s.redrawWith d).readByte k = s.readByte k := rfl
@[simp] theorem State.takeDraw_readByte (k : Nat) : (s.takeDraw).readByte k = s.readByte k := rfl
@[simp] theorem State.setDt_readByte (b : Byte) (k : Nat) : (s.setDt b).readByte k = s.readByte k := rfl
@[simp] theorem State.setSt_readByte (b : Byte) (k : Nat) : (s.setSt b).readByte k = s.readByte k := rfl
@[simp] theorem State.tick_readByte (k : Nat) : (s.tick).readByte k = s.readByte k := rfl
@[simp] theorem State.loadRegs_readByte (x : Reg) (k : Nat) : (s.loadRegs x).readByte k = s.readByte k := rfl

/-! ### The end of a step and the host's reset: every field -/

@[simp] theorem State.tickAfterStep_of_faulted (h : s.faulted = true) : s.tickAfterStep = s := by
  simp [State.tickAfterStep, h]

theorem State.tickAfterStep_perStep (h : s.fault = none) (m : s.params.tickMode = .perStep) :
    s.tickAfterStep = s.tick := by
  simp [State.tickAfterStep, State.faulted, h, m]

theorem State.tickAfterStep_external (m : s.params.tickMode = .external) : s.tickAfterStep = s := by
  simp [State.tickAfterStep, m]

/-- All the end of a step can do: nothing, or one tick. -/
theorem State.tickAfterStep_cases : s.tickAfterStep = s ∨ (s.fault = none ∧ s.tickAfterStep = s.tick) := by
  rcases hm : s.params.tickMode with _ | _
  · rcases hf : s.fault with _ | v
    · exact .inr ⟨rfl, s.tickAfterStep_perStep hf hm⟩
    · exact .inl (s.tickAfterStep_of_faulted (by simp [State.faulted, hf]))
  · exact .inl (s.tickAfterStep_external hm)

@[simp] theorem State.tickAfterStep_v : s.tickAfterStep.v = s.v := by
  rcases s.tickAfterStep_cases with h | ⟨_, h⟩ <;> rw [h]
  rfl

@[simp] theorem State.tickAfterStep_i : s.tickAfterStep.i = s.i := by
  rcases s.tickAfterStep_cases with h | ⟨_, h⟩ <;> rw [h]
  rfl

@[simp] theorem State.tickAfterStep_pc : s.tickAfterStep.pc = s.pc := by
  rcases s.tickAfterStep_cases with h | ⟨_, h⟩ <;> rw [h]
  rfl

@[simp] theorem State.tickAfterStep_stack : s.tickAfterStep.stack = s.stack := by
  rcases s.tickAfterStep_cases with h | ⟨_, h⟩ <;> rw [h]
  rfl

@[simp] theorem State.tickAfterStep_sp : s.tickAfterStep.sp = s.sp := by
  rcases s.tickAfterStep_cases with h | ⟨_, h⟩ <;> rw [h]
  rfl

@[simp] theorem State.tickAfterStep_mem : s.tickAfterStep.mem = s.mem := by
  rcases s.tickAfterStep_cases with h | ⟨_, h⟩ <;> rw [h]
  rfl

@[simp] theorem State.tickAfterStep_disp : s.tickAfterStep.disp = s.disp := by
  rcases s.tickAfterStep_cases with h | ⟨_, h⟩ <;> rw [h]
  rfl

@[simp] theorem State.tickAfterStep_key : s.tickAfterStep.key = s.key := by
  rcases s.tickAfterStep_cases with h | ⟨_, h⟩ <;> rw [h]
  rfl

@[simp] theorem State.tickAfterStep_redraw : s.tickAfterStep.redraw = s.redraw := by
  rcases s.tickAfterStep_cases with h | ⟨_, h⟩ <;> rw [h]
  rfl

@[simp] theorem State.tickAfterStep_fault : s.tickAfterStep.fault = s.fault := by
  rcases s.tickAfterStep_cases with h | ⟨_, h⟩ <;> rw [h]
  rfl

@[simp] theorem State.tickAfterStep_params : s.tickAfterStep.params = s.params := by
  rcases s.tickAfterStep_cases with h | ⟨_, h⟩ <;> rw [h]
  rfl

@[simp] theorem State.tickAfterStep_draws : s.tickAfterStep.draws = s.draws := by
  rcases s.tickAfterStep_cases with h | ⟨_, h⟩ <;> rw [h]
  rfl

@[simp] theorem State.tickAfterStep_report : s.tickAfterStep.report = s.report := by
  rcases s.tickAfterStep_cases with h | ⟨_, h⟩ <;> rw [h]
  rfl

@[simp] theorem State.tickAfterStep_trace : s.tickAfterStep.trace = s.trace := by
  rcases s.tickAfterStep_cases with h | ⟨_, h⟩ <;> rw [h]
  rfl

variable (t : State) (w : Option Word) (c : Option Condition)

@[simp] theorem finishStep_v : (finishStep s w c t).v = t.v := t.tickAfterStep_v
@[simp] theorem finishStep_i : (finishStep s w c t).i = t.i := t.tickAfterStep_i
@[simp] theorem finishStep_pc : (finishStep s w c t).pc = t.pc := t.tickAfterStep_pc
@[simp] theorem finishStep_stack : (finishStep s w c t).stack = t.stack := t.tickAfterStep_stack
@[simp] theorem finishStep_sp : (finishStep s w c t).sp = t.sp := t.tickAfterStep_sp
@[simp] theorem finishStep_mem : (finishStep s w c t).mem = t.mem := t.tickAfterStep_mem
@[simp] theorem finishStep_dt : (finishStep s w c t).dt = t.tickAfterStep.dt := rfl
@[simp] theorem finishStep_st : (finishStep s w c t).st = t.tickAfterStep.st := rfl
@[simp] theorem finishStep_disp : (finishStep s w c t).disp = t.disp := t.tickAfterStep_disp
@[simp] theorem finishStep_key : (finishStep s w c t).key = t.key := t.tickAfterStep_key
@[simp] theorem finishStep_redraw : (finishStep s w c t).redraw = t.redraw := t.tickAfterStep_redraw
@[simp] theorem finishStep_fault : (finishStep s w c t).fault = t.fault := t.tickAfterStep_fault
@[simp] theorem finishStep_params : (finishStep s w c t).params = t.params := t.tickAfterStep_params
@[simp] theorem finishStep_draws : (finishStep s w c t).draws = t.draws := t.tickAfterStep_draws
@[simp] theorem finishStep_report : (finishStep s w c t).report = c := rfl
@[simp] theorem finishStep_trace : (finishStep s w c t).trace = some (s.record w) := rfl

end Sys2Proof.Machine
end

