-- ==== Sys2Proof/Laws/Display.lean ====
section
/-! SUPPORT. The laws of the display buffer: what one XOR and a clear do to each cell (spec/44_display.md). -/

namespace Sys2Proof.Machine

@[simp] theorem cellIndex_val (x y row col : Nat) :
    (cellIndex x y row col).val = ((x + col) + (y + row) * 64) % 2048 := rfl

/-- A cleared buffer has every cell 0. -/
@[simp] theorem Display.cell_clear (c : Cell) : Display.cell Display.clear c = false := by
  simp [Display.cell, Display.clear]

/-- XORing a cell inverts it and leaves every other cell alone. -/
@[simp] theorem Display.cell_flip (d : Display) (c e : Cell) :
    Display.cell (Display.flip d c) e = (Display.cell d e ^^ decide (e = c)) := by
  unfold Display.cell Display.flip
  simp only [Vector.getElem_set]
  by_cases hrow : c.val / 64 = e.val / 64
  · have hbit : (c.val % 64 = e.val % 64) ↔ e = c :=
      ⟨fun h => Fin.ext (by omega), fun h => by rw [h]⟩
    have hlt : c.val % 64 < 64 := Nat.mod_lt _ (by decide)
    simp only [hrow, hbit, BitVec.getLsbD_xor, BitVec.getLsbD_twoPow, hlt, decide_true, if_true, Bool.true_and]
  · have hne : e ≠ c := fun h => hrow (by rw [h])
    simp [hrow, hne]

/-- Two buffers with the same cells are the same buffer. -/
theorem Display.ext_cell {d d' : Display} (h : ∀ c, Display.cell d c = Display.cell d' c) : d = d' := by
  refine Vector.ext fun r hr => BitVec.eq_of_getLsbD_eq fun b hb => ?_
  have := h ⟨r * 64 + b, by omega⟩
  simpa [Display.cell, Nat.add_mod, Nat.mod_eq_of_lt hb, show (r * 64 + b) / 64 = r by omega] using this

@[simp] theorem drawPixel_fst (c : Cell) (p : Display × Bool) : (drawPixel c p).1 = Display.flip p.1 c := rfl

@[simp] theorem drawPixel_snd (c : Cell) (p : Display × Bool) :
    (drawPixel c p).2 = (p.2 || Display.cell p.1 c) := rfl

end Sys2Proof.Machine
end

