-- ==== Sys2Proof/Laws/Encoding.lean ====
section
/-! SUPPORT. Field extraction and the encoder's formats (spec/30_encoding.md R62). -/

namespace Sys2Proof

@[simp] theorem regOf_nibbleOf (x : Reg) : regOf (nibbleOf x) = x := rfl

@[simp] theorem nibbleOf_regOf (n : Nibble) : nibbleOf (regOf n) = n := rfl

/-- A word is its four nibbles. -/
theorem ofNibbles_nibble (w : Word) : ofNibbles (nibble w 3) (nibble w 2) (nibble w 1) (nibble w 0) = w := by
  refine BitVec.eq_of_getLsbD_eq fun k hk => ?_
  simp only [ofNibbles, nibble, BitVec.getLsbD_append, BitVec.getLsbD_extractLsb']
  interval_cases k <;> simp

/-- The nibbles of four nibbles. -/
@[simp] theorem nibble_ofNibbles (g x y n : Nibble) :
    nibble (ofNibbles g x y n) 3 = g ∧ nibble (ofNibbles g x y n) 2 = x ∧
      nibble (ofNibbles g x y n) 1 = y ∧ nibble (ofNibbles g x y n) 0 = n := by
  refine ⟨?_, ?_, ?_, ?_⟩ <;>
  · refine BitVec.eq_of_getLsbD_eq fun k hk => ?_
    simp only [ofNibbles, nibble, BitVec.getLsbD_append, BitVec.getLsbD_extractLsb']
    interval_cases k <;> simp

/-- Decoding a word given by its nibbles. -/
theorem decodeWord_ofNibbles (g x y n : Nibble) : decodeWord (ofNibbles g x y n) = decodeNibbles g x y n := by
  simp [decodeWord]

/-- An address is its three nibbles. -/
theorem addr12_nibbles (nnn : Addr) :
    addr12 (nnn.extractLsb' 8 4) (nnn.extractLsb' 4 4) (nnn.extractLsb' 0 4) = nnn := by
  refine BitVec.eq_of_getLsbD_eq fun k hk => ?_
  simp only [addr12, BitVec.getLsbD_append, BitVec.getLsbD_extractLsb']
  interval_cases k <;> simp

/-- A byte is its two nibbles. -/
theorem imm8_nibbles (nn : Byte) : imm8 (nn.extractLsb' 4 4) (nn.extractLsb' 0 4) = nn := by
  refine BitVec.eq_of_getLsbD_eq fun k hk => ?_
  simp only [imm8, BitVec.getLsbD_append, BitVec.getLsbD_extractLsb']
  interval_cases k <;> simp

/-- The ADDR format by nibbles. -/
theorem encodeAddr_nibbles (g : Nibble) (nnn : Addr) :
    encodeAddr g nnn = ofNibbles g (nnn.extractLsb' 8 4) (nnn.extractLsb' 4 4) (nnn.extractLsb' 0 4) := by
  refine BitVec.eq_of_getLsbD_eq fun k hk => ?_
  simp only [encodeAddr, ofNibbles, BitVec.getLsbD_append, BitVec.getLsbD_extractLsb']
  interval_cases k <;> simp

/-- The REG_IMM and REG_SEL formats by nibbles. -/
theorem encodeRegByte_nibbles (g : Nibble) (x : Reg) (nn : Byte) :
    encodeRegByte g x nn = ofNibbles g (nibbleOf x) (nn.extractLsb' 4 4) (nn.extractLsb' 0 4) := by
  refine BitVec.eq_of_getLsbD_eq fun k hk => ?_
  simp only [encodeRegByte, ofNibbles, BitVec.getLsbD_append, BitVec.getLsbD_extractLsb']
  interval_cases k <;> simp

/-- The REG_REG formats by nibbles. -/
theorem encodeRegReg_nibbles (g : Nibble) (x y : Reg) (n : Nibble) :
    encodeRegReg g x y n = ofNibbles g (nibbleOf x) (nibbleOf y) n := rfl

/-- The bytes of a word are the word, the high byte first. -/
theorem wordOfBytes_bytesOfWord (w : Word) : wordOfBytes (w.extractLsb' 8 8) (w.extractLsb' 0 8) = w := by
  refine BitVec.eq_of_getLsbD_eq fun k hk => ?_
  simp only [wordOfBytes, BitVec.getLsbD_append, BitVec.getLsbD_extractLsb']
  interval_cases k <;> simp

end Sys2Proof
end

