-- ==== Sys2Proof/Laws/HostEvents.lean ====
section
/-! SUPPORT. Sequences of moves, and what a sequence of key settings leaves (spec/70_reset_and_hazards.md R238,
R242). -/

namespace Sys2Proof.Machine

/-- A sequence of moves is run part by part. -/
theorem runMoves_append (a b : List Move) (s : State) :
    runMoves (a ++ b) s = (runMoves a s).bind (runMoves b) := by
  induction a generalizing s with
  | nil => rfl
  | cons m a ih => simp only [List.cons_append, runMoves]; cases move m s <;> simp [ih]

/-- A sequence of key settings always runs; it changes the key states alone, and each key is as its last setting left
it, or as before when none names it. -/
theorem runMoves_setKeys (keys : List (Key × Bool)) (s : State) :
    ∃ key, runMoves (keys.map fun e => .host (.setKey e.1 e.2)) s = some { s with key := key } ∧
      ∀ k : Key, key[k.val] = ((keys.reverse.find? fun e => e.1 = k).map Prod.snd).getD s.key[k.val] := by
  induction keys generalizing s with
  | nil => exact ⟨s.key, rfl, fun _ => rfl⟩
  | cons e keys ih =>
    obtain ⟨key, hrun, hkey⟩ := ih { s with key := s.key.set e.1.val e.2 }
    refine ⟨key, hrun, fun k => (hkey k).trans ?_⟩
    cases h : keys.reverse.find? fun e => e.1 = k with
    | some f => simp [List.find?_append, h]
    | none =>
      by_cases hk : e.1 = k
      · subst hk; simp [List.find?_append, h]
      · have hv : e.1.val ≠ k.val := fun h => hk (Fin.ext h)
        simp [List.find?_append, h, hk, hv]

end Sys2Proof.Machine
end

