-- ==== Sys2Proof/Laws/Memory.lean ====
section
/-! SUPPORT. The laws of memory: a read after a write, and that every memory operation keeps the canonical form
(spec/20_memory.md R40, R50). -/

namespace Sys2Proof.Machine

/-! ### The canonical form -/

theorem Memory.wfFrom_cons {lo : Nat} {c : Host.Cell} {m : Memory} :
    Memory.wfFrom lo (c :: m) = true ↔
      lo ≤ c.1 ∧ c.1 < memSize ∧ c.2 ≠ unlisted c.1 ∧ Memory.wfFrom (c.1 + 1) m = true := by
  simp [Memory.wfFrom, and_assoc]

theorem Memory.wfFrom_mono {lo lo' : Nat} {m : Memory} (hl : lo' ≤ lo) (h : Memory.wfFrom lo m = true) :
    Memory.wfFrom lo' m = true := by
  cases m with
  | nil => rfl
  | cons c m =>
    rw [Memory.wfFrom_cons] at h ⊢
    exact ⟨hl.trans h.1, h.2⟩

/-- An address below every listed one is not listed. -/
theorem Memory.find_below {lo a : Nat} {m : Memory} (h : Memory.wfFrom lo m = true) (ha : a < lo) :
    Memory.find m a = none := by
  induction m generalizing lo with
  | nil => rfl
  | cons c m ih =>
    obtain ⟨h1, -, -, h4⟩ := Memory.wfFrom_cons.1 h
    have hne : c.1 ≠ a := by omega
    simpa [Memory.find, hne] using ih h4 (by omega)

theorem Memory.wfFrom_listed {lo a : Nat} {b : Byte} {m : Memory} (h1 : lo ≤ a) (h2 : a < memSize)
    (h : Memory.wfFrom (a + 1) m = true) : Memory.wfFrom lo (Memory.cons a b m) = true := by
  unfold Memory.cons
  split
  · exact Memory.wfFrom_mono (by omega) h
  · next hb => exact Memory.wfFrom_cons.2 ⟨h1, h2, hb, h⟩

theorem Memory.wfFrom_insert {lo a : Nat} {b : Byte} {m : Memory} (h1 : lo ≤ a) (h2 : a < memSize)
    (h : Memory.wfFrom lo m = true) : Memory.wfFrom lo (Memory.insert m a b) = true := by
  induction m generalizing lo with
  | nil => exact Memory.wfFrom_listed h1 h2 rfl
  | cons c m ih =>
    obtain ⟨c1, c2, c3, c4⟩ := Memory.wfFrom_cons.1 h
    unfold Memory.insert
    split
    · exact Memory.wfFrom_listed h1 h2 (Memory.wfFrom_cons.2 ⟨by omega, c2, c3, c4⟩)
    · split
      · next he => exact Memory.wfFrom_listed h1 h2 (he ▸ c4)
      · exact Memory.wfFrom_cons.2 ⟨c1, c2, c3, ih (by omega) c4⟩

/-- A write keeps the canonical form. -/
theorem Memory.wf_write {m : Memory} (a : Nat) (b : Byte) (h : m.wf = true) : (m.write a b).wf = true := by
  unfold Memory.write
  split
  · next ha => exact Memory.wfFrom_insert (Nat.zero_le a) ha h
  · exact h

/-- Writing any bytes anywhere keeps the canonical form. -/
theorem Memory.wf_writeAll {m : Memory} (a : Nat) (bs : List Byte) (h : m.wf = true) :
    (m.writeAll a bs).wf = true := by
  induction bs generalizing m a with
  | nil => exact h
  | cons b bs ih => exact ih (a + 1) (Memory.wf_write a b h)

/-- Memory at reset has the canonical form. -/
theorem State.reset_wf : State.reset.mem.wf = true := rfl

/-! ### Reading after writing -/

theorem Memory.find_cons {a k : Nat} {b : Byte} {m : Memory} (h : Memory.find m a = none) :
    (Memory.find (Memory.cons a b m) k).getD (unlisted k) =
      if k = a then b else (Memory.find m k).getD (unlisted k) := by
  unfold Memory.cons
  by_cases hk : k = a
  · subst hk
    split <;> simp_all [Memory.find]
  · split <;> simp [Memory.find, Ne.symm hk]

/-- Another address reads as before, whatever list memory is. -/
theorem Memory.find_insert_other {m : Memory} {a k : Nat} {b : Byte} (hk : k ≠ a) :
    Memory.find (Memory.insert m a b) k = Memory.find m k := by
  induction m with
  | nil => unfold Memory.insert Memory.cons; split <;> simp [Memory.find, Ne.symm hk]
  | cons c m ih =>
    unfold Memory.insert
    split
    · unfold Memory.cons; split <;> simp [Memory.find, Ne.symm hk]
    · split
      · next he => unfold Memory.cons; split <;> simp [Memory.find, ← he, Ne.symm hk]
      · simp only [Memory.find, ih]

theorem Memory.find_insert_same {lo a : Nat} {b : Byte} {m : Memory} (h : Memory.wfFrom lo m = true) :
    (Memory.find (Memory.insert m a b) a).getD (unlisted a) = b := by
  induction m generalizing lo with
  | nil => simpa [Memory.insert, Memory.find] using Memory.find_cons (k := a) (b := b) (m := []) (a := a) rfl
  | cons c m ih =>
    obtain ⟨c1, c2, c3, c4⟩ := Memory.wfFrom_cons.1 h
    unfold Memory.insert
    split
    · next hlt =>
      have hn := Memory.find_below (m := c :: m) (Memory.wfFrom_cons.2 ⟨Nat.le_refl c.1, c2, c3, c4⟩) hlt
      simpa using Memory.find_cons (k := a) (b := b) hn
    · split
      · next he =>
        have hn := Memory.find_below (a := a) c4 (by omega)
        simpa using Memory.find_cons (k := a) (b := b) hn
      · next he =>
        have hne : c.1 ≠ a := fun e => he e.symm
        simpa [Memory.find, hne] using ih c4

/-- A write leaves every other address alone. -/
theorem Memory.read_write_other (m : Memory) {a k : Nat} (b : Byte) (hk : k ≠ a) :
    (m.write a b).read k = m.read k := by
  unfold Memory.write Memory.read
  split
  · rw [Memory.find_insert_other hk]
  · rfl

/-- A read after a write to the same address gives the byte written. -/
theorem Memory.read_write_same {m : Memory} {a : Nat} (b : Byte) (h : m.wf = true) (ha : a < memSize) :
    (m.write a b).read a = b := by
  simpa [Memory.write, Memory.read, ha] using Memory.find_insert_same h

/-- Writing bytes leaves every address outside their range alone. -/
theorem Memory.read_writeAll_outside (m : Memory) {a k : Nat} (bs : List Byte) (hk : k < a ∨ a + bs.length ≤ k) :
    (m.writeAll a bs).read k = m.read k := by
  induction bs generalizing m a with
  | nil => rfl
  | cons b bs ih =>
    simp only [List.length_cons] at hk
    rw [Memory.writeAll, ih _ (by omega), Memory.read_write_other _ _ (by omega)]

/-- Inside the range each address reads as the byte written there. -/
theorem Memory.read_writeAll_inside {m : Memory} {a j : Nat} {bs : List Byte} (h : m.wf = true)
    (hr : a + bs.length ≤ memSize) (hj : j < bs.length) : (m.writeAll a bs).read (a + j) = bs[j] := by
  induction bs generalizing m a j with
  | nil => simp at hj
  | cons b bs ih =>
    simp only [List.length_cons] at hj hr
    rw [Memory.writeAll]
    cases j with
    | zero =>
      rw [Memory.read_writeAll_outside _ _ (by omega)]
      simpa using Memory.read_write_same b h (show a < memSize by omega)
    | succ j =>
      have := ih (m := m.write a b) (a := a + 1) (j := j) (Memory.wf_write a b h) (by omega) (by omega)
      simpa [Nat.add_assoc, Nat.add_comm 1 j] using this

/-- The bytes of the reset state's memory: the font table, then zeros. -/
theorem State.reset_readByte (a : Nat) : State.reset.readByte a = unlisted a := rfl

theorem State.readByte_writeBytes_outside (s : State) {a k : Nat} (bs : List Byte)
    (hk : k < a ∨ a + bs.length ≤ k) : (s.writeBytes a bs).readByte k = s.readByte k :=
  Memory.read_writeAll_outside s.mem bs hk

theorem State.readByte_writeBytes_inside {s : State} {a j : Nat} {bs : List Byte} (h : s.mem.wf = true)
    (hr : a + bs.length ≤ memSize) (hj : j < bs.length) : (s.writeBytes a bs).readByte (a + j) = bs[j] :=
  Memory.read_writeAll_inside h hr hj

/-- What every address reads as after bytes are stored inside memory: the byte stored there, or what it held. -/
theorem State.readByte_writeBytes {s : State} {a : Nat} {bs : List Byte} (h : s.mem.wf = true)
    (hr : a + bs.length ≤ memSize) (k : Nat) :
    (s.writeBytes a bs).readByte k = if a ≤ k ∧ k < a + bs.length then bs.getD (k - a) 0 else s.readByte k := by
  split
  · next hk =>
    obtain ⟨j, rfl⟩ := Nat.exists_eq_add_of_le hk.1
    rw [State.readByte_writeBytes_inside h hr (by omega)]
    simp [List.getElem?_eq_getElem (show j < bs.length by omega)]
  · next hk => exact s.readByte_writeBytes_outside bs (by omega)

/-- Two memories in canonical form that read alike everywhere are the same list. -/
theorem Memory.ext_read {lo : Nat} {m m' : Memory} (h : Memory.wfFrom lo m = true)
    (h' : Memory.wfFrom lo m' = true) (he : ∀ a, m.read a = m'.read a) : m = m' := by
  induction m generalizing lo m' with
  | nil =>
    cases m' with
    | nil => rfl
    | cons c m' =>
      obtain ⟨-, -, c3, -⟩ := Memory.wfFrom_cons.1 h'
      have := he c.1
      simp [Memory.read, Memory.find] at this
      exact absurd this.symm c3
  | cons c m ih =>
    obtain ⟨c1, c2, c3, c4⟩ := Memory.wfFrom_cons.1 h
    cases m' with
    | nil =>
      have := he c.1
      simp [Memory.read, Memory.find] at this
      exact absurd this c3
    | cons d m' =>
      obtain ⟨d1, d2, d3, d4⟩ := Memory.wfFrom_cons.1 h'
      have hc := he c.1
      have hd := he d.1
      rcases Nat.lt_trichotomy c.1 d.1 with hlt | heq | hlt
      · have hn := Memory.find_below (m := d :: m') (a := c.1) (Memory.wfFrom_cons.2 ⟨Nat.le_refl _, d2, d3, d4⟩) hlt
        simp [Memory.read, hn] at hc
        simp [Memory.find] at hc
        exact absurd hc c3
      · have hv : c.2 = d.2 := by
          have hc' := hc
          simp [Memory.read, Memory.find, heq] at hc'
          exact hc'
        have hcd : c = d := Prod.ext heq hv
        subst hcd
        congr 1
        refine ih c4 d4 fun a => ?_
        by_cases ha : a = c.1
        · subst ha
          simp [Memory.read, Memory.find_below c4 (Nat.lt_succ_self _), Memory.find_below d4 (Nat.lt_succ_self _)]
        · have := he a
          simpa [Memory.read, Memory.find, Ne.symm ha] using this
      · have hn := Memory.find_below (m := c :: m) (a := d.1) (Memory.wfFrom_cons.2 ⟨Nat.le_refl _, c2, c3, c4⟩) hlt
        simp [Memory.read, hn] at hd
        simp [Memory.find] at hd
        exact absurd hd.symm d3

end Sys2Proof.Machine
end

