-- ==== Sys2Proof/Laws/Ops.lean ====
section
/-! SUPPORT. One lemma per shared operation that says everything it can do, and the inversion of the step: later
proofs cite these and unfold neither the operations nor `step`. -/

namespace Sys2Proof.Machine

variable (s : State)

/-! ### Completing, skipping, raising -/

@[simp] theorem complete_eq : complete s = .next s.advance := rfl

@[simp] theorem skipIf_eq (c : Bool) : skipIf c s = .next (s.setPc (if c then s.pc + 4 else s.pc + 2)) := rfl

@[simp] theorem raise_eq (v : Violation) : raise v s = .next { s with fault := some v } := rfl

@[simp] theorem flagThenResult_eq (x : Reg) (f : Bool) (r : Byte) :
    flagThenResult x f r s = .next ((s.setFlag f).setReg x r).advance := rfl

@[simp] theorem resultThenZeroFlag_eq (x : Reg) (r : Byte) :
    resultThenZeroFlag x r s = .next ((s.setReg x r).setFlag false).advance := rfl

/-! ### Bounds, stack, keys -/

theorem whenInBounds_inside {last : Nat} {i : Instr} {k : Result} (h : last ≤ 4095) :
    whenInBounds last i s k = k := by
  simp [whenInBounds, Nat.not_lt.2 h]

theorem whenInBounds_outside {last : Nat} {i : Instr} {k : Result} (h : 4095 < last) :
    whenInBounds last i s k = raise (.dataOutOfBounds last s.pc (encode i)) s := by
  simp [whenInBounds, h]

/-- All a checked access can answer: the access, in bounds, or the violation. -/
theorem whenInBounds_cases (last : Nat) (i : Instr) (k : Result) :
    (last ≤ 4095 ∧ whenInBounds last i s k = k) ∨
      (4095 < last ∧
        whenInBounds last i s k = .next { s with fault := some (.dataOutOfBounds last s.pc (encode i)) }) := by
  rcases Nat.lt_or_ge 4095 last with h | h
  · exact .inr ⟨h, whenInBounds_outside s h⟩
  · exact .inl ⟨h, whenInBounds_inside s h⟩

theorem State.push_full (a : Word) (h : s.sp.val = 16) : s.push a = none := by
  simp [State.push, h]

theorem State.push_room (a : Word) (h : s.sp.val < 16) :
    s.push a = some { s with stack := s.stack.set s.sp.val a, sp := ⟨s.sp.val + 1, Nat.succ_lt_succ h⟩ } := by
  simp [State.push, h]

theorem State.pop_empty (h : s.sp.val = 0) : s.pop = none := by
  simp [State.pop, h]

theorem State.pop_active (h : s.sp.val ≠ 0) :
    s.pop = some (s.stack[s.sp.val - 1]'(by have := s.sp.isLt; omega),
      { s with sp := ⟨s.sp.val - 1, by have := s.sp.isLt; omega⟩ }) := by
  simp [State.pop, h]

theorem State.selectedKey_none (x : Reg) (h : ¬ (s.reg x).toNat < 16) : s.selectedKey x = none := by
  simp [State.selectedKey, h]

theorem State.selectedKey_some (x : Reg) (h : (s.reg x).toNat < 16) :
    s.selectedKey x = some ⟨(s.reg x).toNat, h⟩ := by
  simp [State.selectedKey, h]

/-- The keys listed are the keys that are down. -/
theorem State.mem_downKeys (k : Key) : k ∈ s.downKeys ↔ s.key[k.val] = true := by
  simp [State.downKeys]

/-- The picked key is one of those listed. -/
theorem pickKey_mem (n : Nat) (k : Key) (ks : List Key) : pickKey n k ks ∈ k :: ks := by
  have h : Config.freePick n % (ks.length + 1) < (k :: ks).length := Nat.mod_lt _ (Nat.succ_pos _)
  unfold pickKey
  rw [List.getElem?_eq_getElem h]
  exact List.getElem_mem h

/-! ### Timers -/

theorem lowered_toNat (b : Byte) : (lowered b).toNat = b.toNat - 1 := by
  unfold lowered
  split
  · next h => simp [h]
  · next h =>
    have : b.toNat ≠ 0 := fun e => h (BitVec.eq_of_toNat_eq (by simpa using e))
    rw [BitVec.toNat_sub_of_le (by simp [BitVec.le_def]; omega)]
    simp

/-! ### Fetch and the step -/

theorem State.fetch_inside (h : s.pc.toNat < s.params.fetchLimit.val) :
    s.fetch = .ok (wordOfBytes (s.readByte s.pc.toNat) (s.readByte (s.pc.toNat + 1))) := by
  simp [State.fetch, h]

theorem State.fetch_outside (h : s.params.fetchLimit.val ≤ s.pc.toNat) :
    s.fetch = .error (.fetchOutOfBounds s.pc) := by
  simp [State.fetch, h]

theorem step_of_faulted (h : s.fault ≠ none) : step s = .next s := by
  have : s.faulted = true := by simpa [State.faulted, Option.isSome_iff_ne_none] using h
  simp [step, this]

theorem step_of_running (h : s.fault = none) :
    step s =
      match s.fetch with
      | .error v => .next (fetchFaultStep s v)
      | .ok w =>
        match decodeWord w with
        | .error _ => .next (unrecognizedStep s w)
        | .ok i => afterExecute s w (exec i s) := by
  have hf : ¬ s.faulted = true := by simp [State.faulted, h]
  exact if_neg hf

variable {s}

theorem step_of_fetch_error {v : Violation} (h : s.fault = none) (hf : s.fetch = .error v) :
    step s = .next (fetchFaultStep s v) := by
  simp [step_of_running s h, hf]

theorem step_of_unrecognized {w : Word} {r : Reject} (h : s.fault = none) (hf : s.fetch = .ok w)
    (hd : decodeWord w = .error r) : step s = .next (unrecognizedStep s w) := by
  simp [step_of_running s h, hf, hd]

theorem step_of_decoded {w : Word} {i : Instr} (h : s.fault = none) (hf : s.fetch = .ok w)
    (hd : decodeWord w = .ok i) : step s = afterExecute s w (exec i s) := by
  simp [step_of_running s h, hf, hd]

/-- All a step can do: nothing in the faulted state; latch a fetch violation; pass over an unrecognized word; or
finish the step of the decoded instruction. -/
theorem step_cases {t : State} (h : step s = .next t) :
    (s.fault ≠ none ∧ t = s) ∨
    (s.fault = none ∧ ∃ v, s.fetch = .error v ∧ t = fetchFaultStep s v) ∨
    (s.fault = none ∧ ∃ w r, s.fetch = .ok w ∧ decodeWord w = .error r ∧ t = unrecognizedStep s w) ∨
    (s.fault = none ∧ ∃ w i u, s.fetch = .ok w ∧ decodeWord w = .ok i ∧ exec i s = .next u ∧
      t = finishExecuted s w u) := by
  by_cases hf : s.fault = none
  · right
    rcases hw : s.fetch with v | w
    · rw [step_of_fetch_error hf hw, Host.Outcome.next.injEq] at h
      exact .inl ⟨hf, v, rfl, h.symm⟩
    · rcases hd : decodeWord w with r | i
      · rw [step_of_unrecognized hf hw hd, Host.Outcome.next.injEq] at h
        exact .inr (.inl ⟨hf, w, r, rfl, hd, h.symm⟩)
      · rw [step_of_decoded hf hw hd] at h
        rcases he : exec i s with u | f | f <;> simp only [he, afterExecute] at h
        · rw [Host.Outcome.next.injEq] at h
          exact .inr (.inr ⟨hf, w, i, u, rfl, hd, he, h.symm⟩)
        · cases h
        · cases h
  · rw [step_of_faulted s hf, Host.Outcome.next.injEq] at h
    exact .inl ⟨hf, h.symm⟩

end Sys2Proof.Machine
end

