-- ==== Sys2Proof/Laws/PerInstr.lean ====
section
/-! SUPPORT. Statements about every instruction as syntax, one lemma per constructor. Family `RowMatch`: the word of
a well-formed instruction matches the instruction's own row of the opcode map (spec/30_encoding.md R64). -/

namespace Sys2Proof.Laws.RowMatch

/-- The instruction's word matches the row of its mnemonic. -/
def Statement (i : Instr) : Prop :=
  i.WellFormed → ∃ r ∈ opcodeMap, r.mnemonic = i.mnemonic ∧ r.admits (encode i) = true

/-- A word of the ADDR format keeps its top nibble under the mask F000. -/
theorem mask_addr (g : Nibble) (nnn : Addr) : encodeAddr g nnn &&& 0xF000 = g ++ (0 : Addr) := by
  refine BitVec.eq_of_getLsbD_eq fun k hk => ?_
  simp only [encodeAddr, BitVec.getLsbD_append, BitVec.getLsbD_and]
  interval_cases k <;> simp

/-- A word of the REG_IMM format keeps its top nibble under the mask F000. -/
theorem mask_regImm (g : Nibble) (x : Reg) (nn : Byte) : encodeRegByte g x nn &&& 0xF000 = g ++ (0 : Addr) := by
  refine BitVec.eq_of_getLsbD_eq fun k hk => ?_
  simp only [encodeRegByte, BitVec.getLsbD_append, BitVec.getLsbD_and]
  interval_cases k <;> simp

/-- A word of the REG_SEL format keeps its top nibble and low byte under the mask F0FF. -/
theorem mask_regSel (g : Nibble) (x : Reg) (nn : Byte) :
    encodeRegByte g x nn &&& 0xF0FF = g ++ (0 : Nibble) ++ nn := by
  refine BitVec.eq_of_getLsbD_eq fun k hk => ?_
  simp only [encodeRegByte, BitVec.getLsbD_append, BitVec.getLsbD_and]
  interval_cases k <;> simp

/-- A word of the REG_REG_N format keeps its top nibble under the mask F000. -/
theorem mask_regRegN (g : Nibble) (x y : Reg) (n : Nibble) :
    encodeRegReg g x y n &&& 0xF000 = g ++ (0 : Addr) := by
  refine BitVec.eq_of_getLsbD_eq fun k hk => ?_
  simp only [encodeRegReg, BitVec.getLsbD_append, BitVec.getLsbD_and]
  interval_cases k <;> simp

/-- A word of the REG_REG format keeps its top and low nibbles under the mask F00F. -/
theorem mask_regReg (g : Nibble) (x y : Reg) (n : Nibble) :
    encodeRegReg g x y n &&& 0xF00F = g ++ (0 : Byte) ++ n := by
  refine BitVec.eq_of_getLsbD_eq fun k hk => ?_
  simp only [encodeRegReg, BitVec.getLsbD_append, BitVec.getLsbD_and]
  interval_cases k <;> simp

/-- From the row's place in the map and its match. -/
theorem of_row {i : Instr} (k : Nat) (r : OpcodeRow) (h : opcodeMap[k]? = some r)
    (hm : r.mnemonic = i.mnemonic) (ha : encode i &&& r.mask = r.pattern) : Statement i :=
  fun _ => ⟨r, List.mem_of_getElem? h, hm, by simp [OpcodeRow.admits, ha]⟩

theorem cls : Statement .cls :=
  of_row 0 _ rfl rfl rfl

theorem ret : Statement .ret :=
  of_row 1 _ rfl rfl rfl

theorem jp (nnn : Addr) : Statement (.jp nnn) :=
  of_row 2 _ rfl rfl (mask_addr _ _)

theorem call (nnn : Addr) : Statement (.call nnn) :=
  of_row 3 _ rfl rfl (mask_addr _ _)

theorem seImm (x : Reg) (nn : Byte) : Statement (.seImm x nn) :=
  of_row 4 _ rfl rfl (mask_regImm _ _ _)

theorem sneImm (x : Reg) (nn : Byte) : Statement (.sneImm x nn) :=
  of_row 5 _ rfl rfl (mask_regImm _ _ _)

theorem seReg (x y : Reg) (ign : Nibble) : Statement (.seReg x y ign) :=
  of_row 6 _ rfl rfl (mask_regRegN _ _ _ _)

theorem ldImm (x : Reg) (nn : Byte) : Statement (.ldImm x nn) :=
  of_row 7 _ rfl rfl (mask_regImm _ _ _)

theorem addImm (x : Reg) (nn : Byte) : Statement (.addImm x nn) :=
  of_row 8 _ rfl rfl (mask_regImm _ _ _)

theorem ldReg (x y : Reg) : Statement (.ldReg x y) :=
  of_row 9 _ rfl rfl (mask_regReg _ _ _ _)

theorem orReg (x y : Reg) : Statement (.orReg x y) :=
  of_row 10 _ rfl rfl (mask_regReg _ _ _ _)

theorem andReg (x y : Reg) : Statement (.andReg x y) :=
  of_row 11 _ rfl rfl (mask_regReg _ _ _ _)

theorem xorReg (x y : Reg) : Statement (.xorReg x y) :=
  of_row 12 _ rfl rfl (mask_regReg _ _ _ _)

theorem addReg (x y : Reg) : Statement (.addReg x y) :=
  of_row 13 _ rfl rfl (mask_regReg _ _ _ _)

theorem subReg (x y : Reg) : Statement (.subReg x y) :=
  of_row 14 _ rfl rfl (mask_regReg _ _ _ _)

theorem shr (x y : Reg) : Statement (.shr x y) :=
  of_row 15 _ rfl rfl (mask_regReg _ _ _ _)

theorem subn (x y : Reg) : Statement (.subn x y) :=
  of_row 16 _ rfl rfl (mask_regReg _ _ _ _)

theorem shl (x y : Reg) : Statement (.shl x y) :=
  of_row 17 _ rfl rfl (mask_regReg _ _ _ _)

theorem sneReg (x y : Reg) (ign : Nibble) : Statement (.sneReg x y ign) :=
  of_row 18 _ rfl rfl (mask_regRegN _ _ _ _)

theorem ldI (nnn : Addr) : Statement (.ldI nnn) :=
  of_row 19 _ rfl rfl (mask_addr _ _)

theorem jpV0 (nnn : Addr) : Statement (.jpV0 nnn) :=
  of_row 20 _ rfl rfl (mask_addr _ _)

theorem rnd (x : Reg) (nn : Byte) : Statement (.rnd x nn) :=
  of_row 21 _ rfl rfl (mask_regImm _ _ _)

theorem drw (x y : Reg) (n : Nat) : Statement (.drw x y n) :=
  of_row 22 _ rfl rfl (mask_regRegN _ _ _ _)

theorem skp (x : Reg) : Statement (.skp x) :=
  of_row 23 _ rfl rfl (mask_regSel _ _ _)

theorem sknp (x : Reg) : Statement (.sknp x) :=
  of_row 24 _ rfl rfl (mask_regSel _ _ _)

theorem ldVxDt (x : Reg) : Statement (.ldVxDt x) :=
  of_row 25 _ rfl rfl (mask_regSel _ _ _)

theorem ldVxK (x : Reg) : Statement (.ldVxK x) :=
  of_row 26 _ rfl rfl (mask_regSel _ _ _)

theorem ldDtVx (x : Reg) : Statement (.ldDtVx x) :=
  of_row 27 _ rfl rfl (mask_regSel _ _ _)

theorem ldStVx (x : Reg) : Statement (.ldStVx x) :=
  of_row 28 _ rfl rfl (mask_regSel _ _ _)

theorem addI (x : Reg) : Statement (.addI x) :=
  of_row 29 _ rfl rfl (mask_regSel _ _ _)

theorem ldF (x : Reg) : Statement (.ldF x) :=
  of_row 30 _ rfl rfl (mask_regSel _ _ _)

theorem ldB (x : Reg) : Statement (.ldB x) :=
  of_row 31 _ rfl rfl (mask_regSel _ _ _)

theorem dump (x : Reg) : Statement (.dump x) :=
  of_row 32 _ rfl rfl (mask_regSel _ _ _)

theorem load (x : Reg) : Statement (.load x) :=
  of_row 33 _ rfl rfl (mask_regSel _ _ _)

end Sys2Proof.Laws.RowMatch
end

