-- ==== Sys2Proof/Tests/Slice0.lean ====
section
/-! SUPPORT. Small tests: decoding of words written out from the encodings of spec/30_encoding.md, single steps with
the results of spec/95_test_vectors.md, and witnesses that meet the hypotheses of the statements. -/

namespace Sys2Proof.Tests

open Sys2Proof Sys2Proof.Machine

/-! ### Helpers -/

/-- `s` with the word `w` where the next step fetches. -/
def placed (w : Nat) (s : State) : State := s.withFetchWord 16 w

/-- `s` with these registers written. -/
def withRegs (l : List (Reg × Byte)) (s : State) : State := l.foldl (fun t p => t.setReg p.1 p.2) s

/-- The state of an answer. -/
def stateOf (r : Result) : State :=
  match r with
  | .next t => t
  | .fault _ => State.reset
  | .refused _ => State.reset

/-- The state one step after the word `w` is placed at the pc of `s`. -/
def after (w : Nat) (s : State) : State := stateOf (step (placed w s))

/-- `s` with the key down. -/
def keyDown (k : Key) (s : State) : State := { s with key := s.key.set k.val true }

/-- `s` with the given depth. -/
def depth (n : Fin 17) (s : State) : State := { s with sp := n }

/-- `s` whose timers tick by the host only. -/
def external (s : State) : State := { s with params := { s.params with tickMode := .external } }

/-- `s` whose ticks lower the sound timer by one. -/
def decrement (s : State) : State := { s with params := { s.params with soundPolicy := .decrement } }

/-- `s` whose random byte is masked by the fixed mask. -/
def fixedMask (s : State) : State := { s with params := { s.params with maskSource := .fixed } }

/-- A faulted state. -/
def faulted : State := { State.reset with fault := some (.fetchOutOfBounds 0xFFE) }

/-! ### Well-formedness -/

theorem test_drw_sixteen_rows_is_ill_formed : Instr.wellFormed (.drw 0 0 16) = false := by decide
theorem test_drw_fifteen_rows_is_well_formed : Instr.wellFormed (.drw 0 0 15) = true := by decide

/-! ### Decoding: one word per constructor (30_encoding.md, the complete map) -/

theorem test_decode_cls : decodeWord 0b0000000011100000 = .ok .cls := by decide
theorem test_decode_ret : decodeWord 0b0000000011101110 = .ok .ret := by decide
theorem test_decode_jp : decodeWord 0b0001101111001101 = .ok (.jp 0xBCD) := by decide
theorem test_decode_call : decodeWord 0b0010001000001010 = .ok (.call 0x20A) := by decide
theorem test_decode_se_imm : decodeWord 0b0011000100000101 = .ok (.seImm 1 0x05) := by decide
theorem test_decode_sne_imm : decodeWord 0b0100001011111110 = .ok (.sneImm 2 0xFE) := by decide
theorem test_decode_se_reg : decodeWord 0b0101000100100011 = .ok (.seReg 1 2 3) := by decide
theorem test_decode_ld_imm : decodeWord 0b0110101011111111 = .ok (.ldImm 10 0xFF) := by decide
theorem test_decode_add_imm : decodeWord 0b0111000100000010 = .ok (.addImm 1 0x02) := by decide
theorem test_decode_ld_reg : decodeWord 0b1000010000110000 = .ok (.ldReg 4 3) := by decide
theorem test_decode_or : decodeWord 0b1000000100100001 = .ok (.orReg 1 2) := by decide
theorem test_decode_and : decodeWord 0b1000000100100010 = .ok (.andReg 1 2) := by decide
theorem test_decode_xor : decodeWord 0b1000000100100011 = .ok (.xorReg 1 2) := by decide
theorem test_decode_add_reg : decodeWord 0b1000000000010100 = .ok (.addReg 0 1) := by decide
theorem test_decode_sub : decodeWord 0b1000000100100101 = .ok (.subReg 1 2) := by decide
theorem test_decode_shr : decodeWord 0b1000000100100110 = .ok (.shr 1 2) := by decide
theorem test_decode_subn : decodeWord 0b1000000100100111 = .ok (.subn 1 2) := by decide
theorem test_decode_shl : decodeWord 0b1000000100101110 = .ok (.shl 1 2) := by decide
theorem test_decode_sne_reg : decodeWord 0b1001000100101111 = .ok (.sneReg 1 2 15) := by decide
theorem test_decode_ld_i : decodeWord 0b1010001100000001 = .ok (.ldI 0x301) := by decide
theorem test_decode_jp_v0 : decodeWord 0b1011001000110100 = .ok (.jpV0 0x234) := by decide
theorem test_decode_rnd : decodeWord 0b1100000000001111 = .ok (.rnd 0 0x0F) := by decide
theorem test_decode_drw : decodeWord 0b1101000000011111 = .ok (.drw 0 1 15) := by decide
theorem test_decode_skp : decodeWord 0b1110010110011110 = .ok (.skp 5) := by decide
theorem test_decode_sknp : decodeWord 0b1110011010100001 = .ok (.sknp 6) := by decide
theorem test_decode_ld_vx_dt : decodeWord 0b1111000100000111 = .ok (.ldVxDt 1) := by decide
theorem test_decode_ld_vx_k : decodeWord 0b1111001100001010 = .ok (.ldVxK 3) := by decide
theorem test_decode_ld_dt_vx : decodeWord 0b1111001000010101 = .ok (.ldDtVx 2) := by decide
theorem test_decode_ld_st_vx : decodeWord 0b1111010000011000 = .ok (.ldStVx 4) := by decide
theorem test_decode_add_i : decodeWord 0b1111010100011110 = .ok (.addI 5) := by decide
theorem test_decode_ld_f : decodeWord 0b1111011000101001 = .ok (.ldF 6) := by decide
theorem test_decode_ld_b : decodeWord 0b1111011100110011 = .ok (.ldB 7) := by decide
theorem test_decode_dump : decodeWord 0b1111111101010101 = .ok (.dump 15) := by decide
theorem test_decode_load : decodeWord 0b1111111101100101 = .ok (.load 15) := by decide

/-- V-UN-1 to V-UN-5. -/
theorem test_decode_unrecognized :
    (decodeWord 0x0000).isOk = false ∧ (decodeWord 0x00E1).isOk = false ∧ (decodeWord 0x801F).isOk = false ∧
    (decodeWord 0xE0A2).isOk = false ∧ (decodeWord 0xF075).isOk = false := by decide

/-- 95_test_vectors.md V-FE-1, and 20_memory.md R42: the first byte is the high one. -/
theorem test_bytes_are_big_endian : decodeBytes [0x80, 0x14, 0x60] = .ok (.addReg 0 1, [0x60]) := by decide

/-- The table's numbering: bit 0 is the least significant bit of the one word. -/
theorem test_table_word : decodeTableWord 16 0x8014 = some (.addReg 0 1) := by decide

/-! ### Single steps (95_test_vectors.md, parts 1 and 2) -/

/-- V-DRW-1. -/
theorem test_cls :
    let t := after 0x00E0 { State.reset with disp := Display.flip Display.clear 70 }
    Display.cell t.disp 70 = false ∧ t.redraw = true := by decide
/-- V-CF-9. -/
theorem test_ret :
    let t := after 0x00EE (depth 1 { State.reset with pc := 0x20C, stack := State.reset.stack.set 0 0x204 })
    t.pc = 0x206 ∧ t.sp = 0 := by decide
/-- V-CF-10, P7. -/
theorem test_ret_underflow :
    let t := after 0x00EE State.reset
    t.fault = some (.stackUnderflow 0x200 0x00EE) ∧ t.pc = 0x200 := by decide
/-- V-CF-1. -/
theorem test_jp : (after 0x1204 { State.reset with pc := 0x20A }).pc = 0x204 := by decide
/-- V-CF-5. -/
theorem test_call :
    let t := after 0x220A { State.reset with pc := 0x204 }
    t.pc = 0x20A ∧ t.sp = 1 ∧ t.stack[0] = 0x204 := by decide
/-- V-CF-7. -/
theorem test_call_overflow :
    let t := after 0x2300 (depth 16 State.reset)
    t.fault = some (.stackOverflow 0x200 0x2300) ∧ t.pc = 0x200 ∧ t.sp = 16 := by decide
/-- V-CF-11, V-CF-12. -/
theorem test_se_imm :
    (after 0x3105 (withRegs [(1, 5)] State.reset)).pc = 0x204 ∧
    (after 0x3105 (withRegs [(1, 6)] State.reset)).pc = 0x202 := by decide
/-- V-CF-13, V-CF-14. -/
theorem test_sne_imm :
    (after 0x4105 (withRegs [(1, 5)] State.reset)).pc = 0x202 ∧
    (after 0x4105 (withRegs [(1, 6)] State.reset)).pc = 0x204 := by decide
/-- V-CF-16, V-CF-17. -/
theorem test_se_reg :
    (after 0x5010 (withRegs [(0, 7), (1, 8)] State.reset)).pc = 0x202 ∧
    (after 0x501F (withRegs [(0, 7), (1, 7)] State.reset)).pc = 0x204 := by decide
/-- V-CF-19, V-CF-20. -/
theorem test_sne_reg :
    (after 0x9010 (withRegs [(0, 7), (1, 8)] State.reset)).pc = 0x204 ∧
    (after 0x9010 (withRegs [(0, 7), (1, 7)] State.reset)).pc = 0x202 := by decide
/-- V-ALU-1. -/
theorem test_ld_imm : (after 0x6AFF State.reset).reg 10 = 0xFF := by decide
/-- V-ALU-3. -/
theorem test_add_imm :
    let t := after 0x7102 (withRegs [(1, 0xFF)] State.reset)
    t.reg 1 = 0x01 ∧ t.reg 15 = 0 := by decide
/-- V-ALU-5. -/
theorem test_ld_reg :
    let t := after 0x8430 (withRegs [(3, 0x2A), (15, 1)] State.reset)
    t.reg 4 = 0x2A ∧ t.reg 15 = 1 := by decide
/-- V-ALU-6. -/
theorem test_or :
    let t := after 0x8011 (withRegs [(0, 0x0C), (1, 0x0A), (15, 1)] State.reset)
    t.reg 0 = 0x0E ∧ t.reg 15 = 0 := by decide
/-- V-ALU-23. -/
theorem test_or_flag_destination :
    (after 0x8F11 (withRegs [(15, 0x0F), (1, 0xF0)] State.reset)).reg 15 = 0 := by decide
/-- V-ALU-6. -/
theorem test_and :
    let t := after 0x8012 (withRegs [(0, 0x0C), (1, 0x0A), (15, 1)] State.reset)
    t.reg 0 = 0x08 ∧ t.reg 15 = 0 := by decide
/-- V-ALU-6. -/
theorem test_xor :
    let t := after 0x8013 (withRegs [(0, 0x0C), (1, 0x0A), (15, 1)] State.reset)
    t.reg 0 = 0x06 ∧ t.reg 15 = 0 := by decide
/-- V-ALU-13. -/
theorem test_add_reg :
    let t := after 0x8014 (withRegs [(0, 0xFF), (1, 0x01)] State.reset)
    t.reg 0 = 0 ∧ t.reg 15 = 1 := by decide
/-- V-ALU-14: the destination is written last. -/
theorem test_add_reg_flag_destination :
    (after 0x8F14 (withRegs [(15, 0x10), (1, 0x20)] State.reset)).reg 15 = 0x30 := by decide
/-- V-ALU-8. -/
theorem test_sub :
    let t := after 0x8015 (withRegs [(0, 0x03), (1, 0x05)] State.reset)
    t.reg 0 = 0xFE ∧ t.reg 15 = 0 := by decide
/-- V-ALU-9: equal operands, no borrow. -/
theorem test_sub_equal :
    let t := after 0x8015 (withRegs [(0, 0x05), (1, 0x05)] State.reset)
    t.reg 0 = 0 ∧ t.reg 15 = 1 := by decide
/-- V-ALU-16: the source is `V[Y]`. -/
theorem test_shr :
    let t := after 0x8016 (withRegs [(1, 0x05)] State.reset)
    t.reg 0 = 0x02 ∧ t.reg 15 = 1 ∧ t.reg 1 = 0x05 := by decide
/-- V-ALU-21: the old flag register is the source. -/
theorem test_shr_flag_source :
    let t := after 0x80F6 (withRegs [(15, 0x03)] State.reset)
    t.reg 0 = 0x01 ∧ t.reg 15 = 1 := by decide
/-- V-ALU-10. -/
theorem test_subn :
    let t := after 0x8017 (withRegs [(0, 0x03), (1, 0x05)] State.reset)
    t.reg 0 = 0x02 ∧ t.reg 15 = 1 := by decide
/-- V-ALU-11. -/
theorem test_subn_borrow :
    let t := after 0x8017 (withRegs [(0, 0x05), (1, 0x03)] State.reset)
    t.reg 0 = 0xFE ∧ t.reg 15 = 0 := by decide
/-- V-ALU-19. -/
theorem test_shl :
    let t := after 0x801E (withRegs [(1, 0x81)] State.reset)
    t.reg 0 = 0x02 ∧ t.reg 15 = 1 ∧ t.reg 1 = 0x81 := by decide
/-- V-MEM-2. -/
theorem test_ld_i : (after 0xAFFF State.reset).i = 0x0FFF := by decide
/-- V-CF-22. -/
theorem test_jp_v0_past_memory : (after 0xBFFF (withRegs [(0, 0xFF)] State.reset)).pc = 0x10FE := by decide
/-- V-CF-23: register 0, not register 2. -/
theorem test_jp_v0 : (after 0xB234 (withRegs [(2, 0x50)] State.reset)).pc = 0x234 := by decide
/-- V-RND-2, for every random byte. -/
theorem test_rnd_zero_mask : (after 0xC000 (withRegs [(0, 0x55)] State.reset)).reg 0 = 0 := by
  have h : ∀ b : Byte, b &&& 0 = 0 := by decide
  exact h _
/-- V-DRW-4: from the last row the run-on reaches the first row. -/
theorem test_drw_wraps :
    let t := after 0xD011 (withRegs [(0, 0x3C), (1, 0x1F)] ({ State.reset with i := 0x300 }.writeBytes 0x300 [0xFF]))
    Display.cell t.disp 2047 = true ∧ Display.cell t.disp 0 = true ∧ Display.cell t.disp 1984 = false ∧
      t.reg 15 = 0 := by decide
/-- V-DRW-10: one collision suffices. -/
theorem test_drw_collides :
    let t := after 0xD011
      ({ State.reset with i := 0x300, disp := Display.flip Display.clear 0 }.writeBytes 0x300 [0xC0])
    Display.cell t.disp 0 = false ∧ Display.cell t.disp 1 = true ∧ t.reg 15 = 1 := by decide
/-- V-KEY-1. -/
theorem test_skp :
    (after 0xE09E (withRegs [(0, 0x0A)] (keyDown 10 State.reset))).pc = 0x204 ∧
    (after 0xE09E (withRegs [(0, 0x0A)] State.reset)).pc = 0x202 := by decide
/-- V-KEY-3. -/
theorem test_skp_no_such_key :
    (after 0xE09E (withRegs [(0, 0x10)] State.reset)).fault = some (.keyIndexOutOfRange 0x10 0x200 0xE09E) := by decide
/-- V-KEY-2. -/
theorem test_sknp :
    (after 0xE0A1 (withRegs [(0, 0x0A)] State.reset)).pc = 0x204 ∧
    (after 0xE0A1 (withRegs [(0, 0x0A)] (keyDown 10 State.reset))).pc = 0x202 := by decide
/-- V-TMR-1. -/
theorem test_ld_vx_dt :
    let t := after 0xF107 { State.reset with dt := 4 }
    t.reg 1 = 4 ∧ t.dt = 3 := by decide
/-- V-KEY-4, V-KEY-7: a stalled step still ticks. -/
theorem test_ld_vx_k_stalls :
    let t := after 0xF30A { State.reset with dt := 3 }
    t.pc = 0x200 ∧ t.reg 3 = 0 ∧ t.dt = 2 := by decide
/-- V-KEY-5. -/
theorem test_ld_vx_k :
    let t := after 0xF30A (keyDown 7 State.reset)
    t.reg 3 = 7 ∧ t.pc = 0x202 := by decide
/-- V-TMR-2. -/
theorem test_ld_dt_vx :
    (after 0xF015 (withRegs [(0, 3)] State.reset)).dt = 2 ∧
    (after 0xF015 (external (withRegs [(0, 3)] State.reset))).dt = 3 := by decide
/-- V-TMR-3. -/
theorem test_ld_st_vx :
    (after 0xF018 (withRegs [(0, 9)] State.reset)).st = 0 ∧
    (after 0xF018 (decrement (withRegs [(0, 9)] State.reset))).st = 8 := by decide
/-- V-MEM-4. -/
theorem test_add_i :
    let t := after 0xF11E (withRegs [(1, 1)] { State.reset with i := 0x0FFF })
    t.i = 0x1000 ∧ t.reg 15 = 1 := by decide
/-- V-MEM-5. -/
theorem test_add_i_wraps :
    let t := after 0xF01E (withRegs [(0, 0xFF)] { State.reset with i := 0xFFFF })
    t.i = 0x00FE ∧ t.reg 15 = 1 := by decide
/-- V-MEM-7. -/
theorem test_ld_f : (after 0xF029 (withRegs [(0, 0xFF)] State.reset)).i = 0x04FB := by decide
/-- V-MEM-8. -/
theorem test_ld_b :
    let t := after 0xF033 (withRegs [(0, 0xFE)] { State.reset with i := 0x300 })
    t.readByte 0x300 = 2 ∧ t.readByte 0x301 = 5 ∧ t.readByte 0x302 = 4 ∧ t.i = 0x300 := by decide
/-- V-MEM-14. -/
theorem test_ld_b_out_of_bounds :
    let t := after 0xF033 { State.reset with i := 0xFFE }
    t.fault = some (.dataOutOfBounds 0x1000 0x200 0xF033) ∧ t.readByte 0xFFE = 0 := by decide
/-- V-MEM-9. -/
theorem test_dump :
    let t := after 0xF255 (withRegs [(0, 0x11), (1, 0x22), (2, 0x33)] { State.reset with i := 0x400 })
    t.readByte 0x400 = 0x11 ∧ t.readByte 0x402 = 0x33 ∧ t.readByte 0x403 = 0 ∧ t.i = 0x403 := by decide
/-- V-MEM-10. -/
theorem test_dump_last_cell :
    let t := after 0xF055 (withRegs [(0, 0xAB)] { State.reset with i := 0xFFF })
    t.readByte 0xFFF = 0xAB ∧ t.i = 0x1000 := by decide
/-- 43_index_memory.md R146, the example. -/
theorem test_load :
    let t := after 0xF265 ({ State.reset with i := 0x300 }.writeBytes 0x300 [2, 5, 4])
    t.reg 0 = 2 ∧ t.reg 1 = 5 ∧ t.reg 2 = 4 ∧ t.i = 0x303 := by decide
/-- V-MEM-15. -/
theorem test_load_out_of_bounds :
    (after 0xF065 { State.reset with i := 0x1000 }).fault = some (.dataOutOfBounds 0x1000 0x200 0xF065) := by decide
/-- V-UN-6. -/
theorem test_unrecognized_ticks :
    let t := after 0x0000 { State.reset with dt := 5 }
    t.dt = 4 ∧ t.pc = 0x202 ∧ t.report = some (.unrecognizedInstruction 0x200 0) ∧ t.fault = none := by decide
/-- V-FE-2: the fetch at 4093 succeeds. -/
theorem test_fetch_at_4093 : (after 0x1200 { State.reset with pc := 0xFFD }).pc = 0x200 := by decide
/-- V-FE-3. -/
theorem test_fetch_at_4094 :
    (stateOf (step { State.reset with pc := 0xFFE })).fault = some (.fetchOutOfBounds 0xFFE) := by decide
/-- V-LD-1. -/
theorem test_load_event :
    let t := State.reset.loadEvent [0x60, 0x05, 0x61, 0x05, 0x80, 0x14]
    t.readByte 0x200 = 0x60 ∧ t.readByte 0x205 = 0x14 ∧ t.readByte 0x206 = 0 ∧ t.pc = 0x200 := by decide
/-- V-LD-3. -/
theorem test_load_too_long :
    State.reset.loadEvent (List.replicate 3585 0) =
      { State.reset with report := some (.capacityExceeded 3585) } := by
  unfold State.loadEvent
  rw [List.length_replicate]
  rfl

/-! ### Witnesses: states and operands that meet the hypotheses of the statements -/

open Sys2Proof.Claims

/-- DecodeOfEncodeIsTheInstruction, at the top and the bottom of the row count. -/
theorem witness_well_formed : (Instr.drw 15 15 15).WellFormed ∧ (Instr.drw 0 0 0).WellFormed ∧ Instr.cls.WellFormed := by
  decide

/-- EncodeOfDecodeIsTheWord. -/
theorem witness_decoded_word : decodeWord 0xFFFF = .error (.unrecognizedGroupF 0xFFFF) ∧ decodeWord 0xDFFF = .ok (.drw 15 15 15) := by
  decide

/-- DecoderAgreesWithTheOpcodeMap. -/
theorem witness_row_admits :
    opcodeMap.any (fun r => r.admits 0x00E0) = true ∧ opcodeMap.any (fun r => r.admits 0xFF65) = true := by decide

/-- SelectorGroupsDecodeByTheirSelector, one word for each group. -/
theorem witness_selector_groups :
    nibble 0x00EE 3 = 0x0 ∧ nibble 0x8FFE 3 = 0x8 ∧ nibble 0xE0A1 3 = 0xE ∧ nibble 0xF065 3 = 0xF ∧
    (15 : Reg).val = (nibble 0x8FFE 2).toNat ∧ (0 : Reg).val = (nibble 0xE0A1 2).toNat := by decide

/-- StepRunsTheDecodedInstruction, at the highest fetch address. -/
theorem witness_step_runs :
    let s := placed 0x6005 { State.reset with pc := 0xFFD }
    s.fault = none ∧ s.pc.toNat < s.params.fetchLimit.val ∧
    decodeBytes [s.readByte s.pc.toNat, s.readByte (s.pc.toNat + 1)] = .ok (.ldImm 0 5, []) ∧
    (Instr.ldImm 0 5).WellFormed ∧ ∃ u, exec (.ldImm 0 5) s = .next u := by
  refine ⟨?_, ?_, ?_, ?_, _, rfl⟩ <;> decide

/-- FetchReadsBigEndianOrLatches and TraceIsSampledAtTheStartAndAffectsNothing, in bounds. -/
theorem witness_fetch_in_bounds :
    let s := { State.reset with pc := 0xFFD }
    s.fault = none ∧ s.pc.toNat < s.params.fetchLimit.val := by decide

/-- FetchReadsBigEndianOrLatches and TraceIsSampledAtTheStartAndAffectsNothing, out of bounds. -/
theorem witness_fetch_out_of_bounds :
    let s := { State.reset with pc := 0xFFE }
    s.fault = none ∧ s.params.fetchLimit.val ≤ s.pc.toNat ∧ s.fetch = .error (.fetchOutOfBounds 0xFFE) := by decide

/-- UnrecognizedWordIsAReportedNoOp, PER_STEP. -/
theorem witness_unrecognized_per_step :
    let s := State.reset
    s.fault = none ∧ s.fetch = .ok 0 ∧ (∀ r ∈ opcodeMap, r.admits 0 = false) ∧ s.params.tickMode = .perStep := by decide

/-- UnrecognizedWordIsAReportedNoOp, EXTERNAL. -/
theorem witness_unrecognized_external :
    let s := external (placed 0xFFFF State.reset)
    s.fault = none ∧ s.fetch = .ok 0xFFFF ∧ (∀ r ∈ opcodeMap, r.admits 0xFFFF = false) ∧
      s.params.tickMode = .external := by decide

/-- TickLowersTheTimers, both policies. -/
theorem witness_tick_policies :
    { State.reset with st := 255 }.params.soundPolicy = .forceZero ∧
    (decrement { State.reset with st := 255 }).params.soundPolicy = .decrement := by decide

/-- StepTicksOnceAfterTheOperation, PER_STEP. -/
theorem witness_step_ticks_per_step :
    let s := placed 0xF015 (withRegs [(0, 1)] State.reset)
    s.fault = none ∧ s.fetch = .ok 0xF015 ∧ decodeWord 0xF015 = .ok (.ldDtVx 0) ∧
    exec (.ldDtVx 0) s = .next (stateOf (exec (.ldDtVx 0) s)) ∧ (stateOf (exec (.ldDtVx 0) s)).fault = none ∧
    s.params.tickMode = .perStep := by
  refine ⟨?_, ?_, ?_, rfl, ?_, ?_⟩ <;> decide

/-- StepTicksOnceAfterTheOperation, EXTERNAL. -/
theorem witness_step_ticks_external :
    let s := external (placed 0xF015 (withRegs [(0, 1)] State.reset))
    s.fault = none ∧ s.fetch = .ok 0xF015 ∧ decodeWord 0xF015 = .ok (.ldDtVx 0) ∧
    exec (.ldDtVx 0) s = .next (stateOf (exec (.ldDtVx 0) s)) ∧ (stateOf (exec (.ldDtVx 0) s)).fault = none ∧
    s.params.tickMode = .external := by
  refine ⟨?_, ?_, ?_, rfl, ?_, ?_⟩ <;> decide

/-- ViolationChangesOnlyTheLatch. -/
theorem witness_violation_step :
    let s := placed 0x00EE State.reset
    s.fault = none ∧ step s = .next (stateOf (step s)) ∧ (stateOf (step s)).fault ≠ none := by
  refine ⟨?_, rfl, ?_⟩ <;> decide

/-- LatchedFaultFreezesUntilReset. -/
theorem witness_faulted :
    faulted.fault ≠ none ∧ (∃ t, hostEvent (.setKey 15 true) faulted = some t ∧ HostEvent.setKey 15 true ≠ .reset) :=
  ⟨by decide, _, rfl, by decide⟩

/-- DataAccessAboveMemoryIsAViolation, each clause at its first address, and the last address before it. -/
theorem witness_data_access_bounds :
    ({ State.reset with i := 4094 }).i.toNat + 2 > 4095 ∧ ¬ ({ State.reset with i := 4093 }).i.toNat + 2 > 4095 ∧
    ({ State.reset with i := 4095 }).i.toNat + (1 : Reg).val > 4095 ∧
    ¬ ({ State.reset with i := 4095 }).i.toNat + (0 : Reg).val > 4095 ∧
    ((15 : Nat) ≠ 0 ∧ ({ State.reset with i := 4082 }).i.toNat + 15 - 1 > 4095) := by decide

/-- MemoryStaysCanonical, and KeysAndPoliciesAreReadOnlyToTheCore. -/
theorem witness_canonical_memory :
    let s := placed 0xF033 { State.reset with i := 0xFFD }
    s.mem.wf = true ∧ step s = .next (stateOf (step s)) ∧
    hostEvent (.load [1, 2]) s = some (s.loadEvent [1, 2]) := by
  refine ⟨?_, rfl, rfl⟩; decide

/-- PcAndStackStayBounded: an active entry at the last fetch address, and a jump far past it. -/
theorem witness_bounded_control :
    let s := placed 0xBFFF (depth 1 { State.reset with pc := 0xFFD, stack := State.reset.stack.set 0 0xFFD })
    BoundedControl s ∧ step s = .next (stateOf (step s)) ∧ hostEvent .clearRedraw s = some { s with redraw := false } := by
  refine ⟨?_, rfl, rfl⟩; unfold BoundedControl; decide

/-- PcAndStackStayBounded, the third clause at its highest pc. -/
theorem witness_bounded_control_at_the_top : BoundedControl { State.reset with pc := 0x10FE } := by
  unfold BoundedControl; decide

/-- SoundTimerStaysSilentByDefault. -/
theorem witness_silent_sound :
    let s := placed 0xF018 (withRegs [(0, 9)] State.reset)
    s.params.tickMode = .perStep ∧ s.params.soundPolicy = .forceZero ∧ s.st = 0 ∧
    move .step s = some (stateOf (step s)) := by
  refine ⟨?_, ?_, ?_, rfl⟩ <;> decide

/-- OnlyCallAndReturnTouchTheStack, both instructions. -/
theorem witness_stack_changes :
    exec (.call 0x300) State.reset = .next (stateOf (exec (.call 0x300) State.reset)) ∧
    (stateOf (exec (.call 0x300) State.reset)).sp ≠ State.reset.sp ∧
    exec .ret (depth 16 State.reset) = .next (stateOf (exec .ret (depth 16 State.reset))) ∧
    (stateOf (exec .ret (depth 16 State.reset))).sp ≠ 16 := by
  refine ⟨rfl, ?_, rfl, ?_⟩ <;> decide

/-- OnlyDisplayOperationsTouchTheDisplay, both clauses. -/
theorem witness_display_changes :
    exec .cls State.reset = .next (stateOf (exec .cls State.reset)) ∧
    (stateOf (exec .cls State.reset)).redraw ≠ State.reset.redraw ∧
    (let s := placed 0x6005 { State.reset with redraw := true }
     step s = .next (stateOf (step s)) ∧ s.redraw = true) := by
  refine ⟨rfl, ?_, rfl, ?_⟩ <;> decide

/-- OnlyStoreDigitsAndDumpWriteMemory. -/
theorem witness_memory_changes :
    let s := withRegs [(0, 7)] { State.reset with i := 0xFFF }
    exec (.dump 0) s = .next (stateOf (exec (.dump 0) s)) ∧ (stateOf (exec (.dump 0) s)).mem ≠ s.mem := by
  refine ⟨rfl, ?_⟩; decide

/-- OnlyFlagWritersTouchTheFlag, a flag writer and a named destination. -/
theorem witness_flag_changes :
    let s := withRegs [(0, 0xFF), (1, 1)] State.reset
    exec (.addReg 0 1) s = .next (stateOf (exec (.addReg 0 1) s)) ∧
    (stateOf (exec (.addReg 0 1) s)).reg flagReg ≠ s.reg flagReg ∧
    exec (.ldImm 15 9) s = .next (stateOf (exec (.ldImm 15 9) s)) ∧
    (stateOf (exec (.ldImm 15 9) s)).reg flagReg ≠ s.reg flagReg := by
  refine ⟨rfl, ?_, rfl, ?_⟩ <;> decide

/-- SoundTimerIsNeverRead. -/
theorem witness_not_the_sound_timer_move : ∀ x, Instr.ldVxDt 15 ≠ .ldStVx x := by
  intro x h; cases h

/-- CallPushesItsOwnAddress and ReturnPopsAndAdvances, each clause at the ends of its range. -/
theorem witness_stack_depths :
    (depth 15 State.reset).sp.val < 16 ∧ (depth 16 State.reset).sp.val = 16 ∧ State.reset.sp.val < 16 ∧
    (depth 1 State.reset).sp.val = (0 : Fin 16).val + 1 ∧ (depth 16 State.reset).sp.val = (15 : Fin 16).val + 1 ∧
    State.reset.sp.val = 0 := by decide

/-- ReturnAfterCallResumesBehindTheCall. -/
theorem witness_return_after_call :
    let s := depth 15 { State.reset with pc := 0xFFD }
    let t := stateOf (exec (.call 0x300) s)
    s.sp.val < 16 ∧ exec (.call 0x300) s = .next t ∧ ({ t with pc := 0x400 }).stack = t.stack ∧
      ({ t with pc := 0x400 }).sp = t.sp := by
  refine ⟨?_, rfl, rfl, rfl⟩; decide

/-- The four ALU statements whose flag clause asks for another destination. -/
theorem witness_destination_is_not_the_flag : (0 : Reg) ≠ flagReg ∧ (14 : Reg) ≠ flagReg := by decide

/-- StoreDigitsWritesThreeDigits, both clauses where they meet. -/
theorem witness_store_digits_bounds :
    let s := { State.reset with i := 4093 }
    let u := { State.reset with i := 4094 }
    s.mem.wf = true ∧ s.indexed 2 ≤ 4095 ∧ u.indexed 2 > 4095 := by decide

/-- DumpStoresTheRegisters and LoadFillsTheRegisters, both clauses where they meet. -/
theorem witness_block_bounds :
    let s := { State.reset with i := 4080 }
    let u := { State.reset with i := 4081 }
    s.mem.wf = true ∧ s.indexed (15 : Reg).val ≤ 4095 ∧ u.indexed (15 : Reg).val > 4095 ∧
      u.indexed (14 : Reg).val ≤ 4095 := by decide

/-- DumpThenLoadRoundTrips. -/
theorem witness_dump_then_load :
    let s := { State.reset with i := 4080 }
    let t := stateOf (exec (.dump 15) s)
    s.mem.wf = true ∧ s.indexed (15 : Reg).val ≤ 4095 ∧ exec (.dump 15) s = .next t ∧
      ({ t with i := s.i }).mem = t.mem ∧ ({ t with i := s.i }).i = s.i := by
  refine ⟨?_, ?_, rfl, rfl, rfl⟩ <;> decide

/-- StoreIsSeenByTheNextFetch, both stores inside memory up to its last address. -/
theorem witness_store_seen_by_fetch :
    let s := { State.reset with i := 4093 }
    s.mem.wf = true ∧ (s.pc + 2).toNat < s.params.fetchLimit.val ∧ s.indexed 2 ≤ 4095 ∧
      s.indexed (2 : Reg).val ≤ 4095 := by decide

/-- StoreIsSeenByTheNextFetch, V-MEM-16: store-digits over both bytes of the next word. -/
theorem witness_digits_over_both_bytes :
    let s := withRegs [(0, 0x7B)] { State.reset with i := 0x202 }
    let byte := afterStore s 3 fun k => BitVec.ofNat 8 ((s.reg 0).toNat / 10 ^ (2 - k) % 10)
    s.mem.wf = true ∧ s.indexed 2 ≤ 4095 ∧ byte (s.pc + 2).toNat = 1 ∧ byte ((s.pc + 2).toNat + 1) = 2 := by decide

/-- StoreIsSeenByTheNextFetch: a dump over the low byte alone of the next word, and over its high byte alone. -/
theorem witness_dump_over_one_byte :
    let s := withRegs [(0, 0x7B)] { State.reset with i := 0x203 }
    let u := withRegs [(0, 0x7B)] { State.reset with i := 0x202 }
    s.mem.wf = true ∧ s.indexed (0 : Reg).val ≤ 4095 ∧ u.indexed (0 : Reg).val ≤ 4095 ∧
    afterStore s 1 (fun k => s.reg (Fin.ofNat 16 k)) 0x202 = 0 ∧
    afterStore s 1 (fun k => s.reg (Fin.ofNat 16 k)) 0x203 = 0x7B ∧
    afterStore u 1 (fun k => u.reg (Fin.ofNat 16 k)) 0x202 = 0x7B ∧
    afterStore u 1 (fun k => u.reg (Fin.ofNat 16 k)) 0x203 = 0 := by decide

/-- The state of V-DRW-4: eight pixels at (60, 31). -/
def drawn : State :=
  withRegs [(0, 0x3C), (1, 0x1F)] ({ State.reset with i := 0x300 }.writeBytes 0x300 [0xFF])

/-- DrawSpriteXorsTheCoveredCells, both clauses where they meet. -/
theorem witness_draw_bounds :
    (drawn.indexed (15 - 1) ≤ 4095) ∧ ({ drawn with i := 4081 }).indexed (15 - 1) ≤ 4095 ∧
    ({ drawn with i := 4082 }).indexed (15 - 1) > 4095 ∧ ({ drawn with i := 4095 }).indexed (1 - 1) ≤ 4095 ∧
    ({ drawn with i := 4096 }).indexed (1 - 1) > 4095 := by decide

/-- DrawingTwiceRestoresTheDisplay. -/
theorem witness_draw_twice :
    (1 : Nat) < 16 ∧ drawn.indexed (1 - 1) ≤ 4095 ∧ (0 : Reg) ≠ flagReg ∧ (1 : Reg) ≠ flagReg := by decide

/-- DrawSpriteXorsTheCoveredCells: covered cells on both sides of the wrap (V-DRW-4). -/
theorem witness_covered_cells : Covers drawn 0 1 1 2047 ∧ Covers drawn 0 1 1 0 :=
  ⟨⟨0, 3, by decide⟩, ⟨0, 4, by decide⟩⟩

/-- DrawSpriteXorsTheCoveredCells: an uncovered cell. -/
theorem witness_uncovered_cells : ¬ Covers drawn 0 1 0 0 := by
  rintro ⟨row, _, h, _⟩; exact absurd h (Nat.not_lt_zero row)

/-- DrawSpriteXorsTheCoveredCells: a collision. -/
theorem witness_collision :
    Covers { drawn with disp := Display.flip drawn.disp 0 } 0 1 1 0 ∧
      Display.cell { drawn with disp := Display.flip drawn.disp 0 }.disp 0 = true :=
  ⟨⟨0, 4, by decide⟩, by decide⟩

/-- DrawSpriteXorsTheCoveredCells and DrawingTwiceRestoresTheDisplay: no collision. -/
theorem witness_clear_display : ∀ c, Display.cell drawn.disp c = false := by
  intro c; simp [drawn, withRegs, State.setReg, State.writeBytes, State.reset, Display.cell]

/-- KeySkipsTestTheNamedKey, both clauses where they meet. -/
theorem witness_key_indexes :
    ((withRegs [(0, 15)] State.reset).reg 0).toNat = (15 : Key).val ∧
    ((withRegs [(0, 16)] State.reset).reg 0).toNat > 15 := by decide

/-- WaitForKeyStallsOrTakesADownKey, both clauses. -/
theorem witness_keys :
    (∀ k : Key, State.reset.key[k.val] = false) ∧
    (∃ k : Key, (keyDown 9 (keyDown 2 State.reset)).key[k.val] = true) :=
  ⟨by decide, 2, by decide⟩

/-- TimerStepsTickAfterTheMove, each instruction, mode and policy. -/
theorem witness_timer_steps :
    (placed 0xF107 State.reset).fetch = .ok (encode (.ldVxDt 1)) ∧
    (placed 0xFF15 State.reset).fetch = .ok (encode (.ldDtVx 15)) ∧
    (placed 0xF018 State.reset).fetch = .ok (encode (.ldStVx 0)) ∧
    (placed 0xF107 State.reset).params.tickMode = .perStep ∧
    (external (placed 0xF018 State.reset)).params.tickMode = .external ∧
    (external (placed 0xF018 State.reset)).fetch = .ok (encode (.ldStVx 0)) ∧
    (decrement (placed 0xF018 State.reset)).params.soundPolicy = .decrement ∧
    (placed 0xF018 State.reset).fault = none := by decide

/-- RandomAndMaskTakesAFreshMaskedByte, both mask sources. -/
theorem witness_mask_sources :
    State.reset.params.maskSource = .immediate ∧ (fixedMask State.reset).params.maskSource = .fixed := by decide

/-- ResetEventIsFreshAndIdempotent. -/
theorem witness_two_states_with_one_reset :
    faulted.params = State.reset.params ∧ faulted.draws = State.reset.draws ∧ faulted ≠ State.reset := by decide

/-- LoadCopiesTheRomOrChangesNothing, the longest ROM and one byte more. -/
theorem witness_rom_lengths :
    (List.replicate 3584 (1 : Byte)).length ≤ 3584 ∧ (List.replicate 3585 (1 : Byte)).length > 3584 ∧
    ([] : List Byte).length ≤ 3584 ∧ ([0x60, 0x05] : List Byte)[1]? = some 0x05 := by
  refine ⟨?_, ?_, by decide, by decide⟩
  · rw [List.length_replicate]
  · rw [List.length_replicate]; decide

/-- HostEventsChangeOnlyTheirOwnState, each clause. -/
theorem witness_host_events :
    (external State.reset).params.tickMode = .external ∧ (external State.reset).fault = none ∧
    (external faulted).params.tickMode = .external ∧ (external faulted).fault ≠ none ∧
    State.reset.params.tickMode = .perStep := by decide

/-- BootOrderReachesTheFirstInstruction, from a faulted state, at the longest ROM. -/
theorem witness_boot :
    (List.replicate 3582 (1 : Byte)).length ≤ 3582 ∧ 0x200 < faulted.params.fetchLimit.val := by
  refine ⟨?_, by decide⟩; rw [List.length_replicate]

/-- BootOrderReachesTheFirstInstruction, the key clauses: key 5 is set down, then up, then down; key 0 is not named. -/
theorem witness_boot_keys :
    let keys : List (Key × Bool) := [(5, true), (5, false), (15, true), (5, true), (15, false)]
    keys = [(5, true), (5, false), (15, true)] ++ (5, true) :: [(15, false)] ∧
    (∀ e ∈ [((15 : Key), false)], e.1 ≠ 5) ∧ (∀ e ∈ keys, e.1 ≠ 0) := by decide

/-- SelfJumpIsAFixedPoint (V-CF-2). -/
theorem witness_self_jump : Safety.AtSelfJump (placed 0x1200 State.reset) :=
  ⟨by unfold Safety.Safe; decide, by decide, by decide, 0x200, by decide, by decide⟩

end Sys2Proof.Tests
end

/-! Proofs of the family 41_control_flow (spec/41_control_flow.md): the jump (R100) and the skips on a register and
an immediate (R104, R105). -/

section
namespace Sys2Proof.Machine

open Sys2Proof.Claims

section
variable (s : State)

/-! ### The meaning of each instruction, through the shared operations -/

theorem exec_jp (nnn : Addr) : exec (.jp nnn) s = .next (s.setPc (absolute nnn)) := rfl

theorem exec_seImm (x : Reg) (nn : Byte) : exec (.seImm x nn) s = skipIf (s.reg x == nn) s := rfl

theorem exec_sneImm (x : Reg) (nn : Byte) : exec (.sneImm x nn) s = skipIf (s.reg x != nn) s := rfl

/-! ### The pc and its frame -/

/-- Zero extension keeps the value of an address operand (R63). -/
@[simp] theorem absolute_toNat (nnn : Addr) : (absolute nnn).toNat = nnn.toNat :=
  BitVec.toNat_setWidth_of_le (by decide)

/-- Writing the pc is within every frame: no `Touch` names the pc. -/
theorem frame_setPc (c : Touch) (a : Word) : Frame c s (s.setPc a) := by
  simp [Frame]

/-- A skip whose test decides `p` advances by 4 when `p` holds, else by 2, and writes nothing else (R102). -/
theorem skipIf_advances_and_frames {c : Bool} {p : Prop} [Decidable p] (h : c = true ↔ p) :
    ∃ t, skipIf c s = .next t ∧ t.pc = (if p then s.pc + 4 else s.pc + 2) ∧ Frame {} s t := by
  refine ⟨_, skipIf_eq s c, ?_, frame_setPc s {} _⟩
  simp only [State.setPc_pc, h]

end

/-! ### The statements -/

/-- Settles O27: the jump is one write of the pc, with the zero-extended operand. -/
theorem jumpSetsThePc : Obligations.JumpSetsThePc := by
  intro nnn s
  exact ⟨_, exec_jp s nnn, absolute_toNat nnn, frame_setPc s {} _⟩

/-- Settles O32: each of the two is a skip, whose test decides the equality or its negation. -/
theorem immediateSkipsCompareAndSkip : Obligations.ImmediateSkipsCompareAndSkip := by
  intro x nn s
  constructor
  · rw [exec_seImm]
    exact skipIf_advances_and_frames s beq_iff_eq
  · rw [exec_sneImm]
    exact skipIf_advances_and_frames s bne_iff_ne

end Sys2Proof.Machine
end

/-! Proofs of the family 42_alu (spec/42_alu.md): the loads (R120, R122) and add immediate (R121). -/

section
namespace Sys2Proof.Machine

open Sys2Proof.Claims

section
variable (s : State)

/-! ### The meaning of each instruction, through the shared operations -/

theorem exec_ldImm (x : Reg) (nn : Byte) : exec (.ldImm x nn) s = complete (s.setReg x nn) := rfl

theorem exec_ldReg (x y : Reg) : exec (.ldReg x y) s = complete (s.setReg x (s.reg y)) := rfl

theorem exec_addImm (x : Reg) (nn : Byte) : exec (.addImm x nn) s = complete (s.setReg x (s.reg x + nn)) := rfl

/-! ### One register written -/

/-- A register write and the default advance stay within the frame that names that register alone: the flag register
is no exception (R120, R121, R122). -/
theorem frame_setReg_advance (x : Reg) (b : Byte) : Frame { regs := fun r => r = x } s (s.setReg x b).advance := by
  have others : ∀ r, ¬ r = x → (s.setReg x b).advance.reg r = s.reg r := by
    intro r hr
    rw [State.advance_reg, State.setReg_reg, if_neg hr]
  refine ⟨others, ?_⟩
  simp

/-- Completing after one register write: the register holds the byte, the pc is 2 further, nothing else changed. -/
theorem complete_setReg_writes_and_frames (x : Reg) (b : Byte) :
    ∃ t, complete (s.setReg x b) = .next t ∧ t.reg x = b ∧ t.pc = s.pc + 2 ∧ Frame { regs := fun r => r = x } s t := by
  refine ⟨_, complete_eq _, ?_, State.advance_pc _, frame_setReg_advance s x b⟩
  rw [State.advance_reg, State.setReg_reg, if_pos rfl]

end

/-! ### The statements -/

/-- Settles O34: each of the two loads completes after one write of its destination. -/
theorem loadsWriteTheDestination : Obligations.LoadsWriteTheDestination := by
  intro x y nn s
  constructor
  · rw [exec_ldImm]
    exact complete_setReg_writes_and_frames s x nn
  · rw [exec_ldReg]
    exact complete_setReg_writes_and_frames s x (s.reg y)

/-- Settles O35: one write of the destination, and the sum of two bytes is the sum of their values modulo `2 ^ 8`. -/
theorem addImmediateWrapsWithoutFlag : Obligations.AddImmediateWrapsWithoutFlag := by
  intro x nn s
  obtain ⟨t, hexec, hreg, hpc, hframe⟩ := complete_setReg_writes_and_frames s x (s.reg x + nn)
  have hsum : (t.reg x).toNat = ((s.reg x).toNat + nn.toNat) % 256 := by
    rw [hreg, BitVec.toNat_add]
  exact ⟨t, (exec_addImm s x nn).trans hexec, hsum, hpc, hframe⟩

end Sys2Proof.Machine
end

/-! Encoding (spec/30_encoding.md): decoding what was encoded, encoding what was decoded, and the opcode map. -/

section
namespace Sys2Proof

/-! ### Decoding a word of each format -/

/-- Decoding a word of the ADDR format. -/
theorem decodeWord_encodeAddr (g : Nibble) (nnn : Addr) :
    decodeWord (encodeAddr g nnn) =
      decodeNibbles g (nnn.extractLsb' 8 4) (nnn.extractLsb' 4 4) (nnn.extractLsb' 0 4) := by
  rw [encodeAddr_nibbles, decodeWord_ofNibbles]

/-- Decoding a word of the REG_IMM and REG_SEL formats. -/
theorem decodeWord_encodeRegByte (g : Nibble) (x : Reg) (nn : Byte) :
    decodeWord (encodeRegByte g x nn) = decodeNibbles g (nibbleOf x) (nn.extractLsb' 4 4) (nn.extractLsb' 0 4) := by
  rw [encodeRegByte_nibbles, decodeWord_ofNibbles]

/-- Decoding a word of the REG_REG and REG_REG_N formats. -/
theorem decodeWord_encodeRegReg (g : Nibble) (x y : Reg) (n : Nibble) :
    decodeWord (encodeRegReg g x y n) = decodeNibbles g (nibbleOf x) (nibbleOf y) n := by
  rw [encodeRegReg_nibbles, decodeWord_ofNibbles]

/-- An instruction whose operand is an address: its group reads the address off the three low nibbles. -/
theorem decodeWord_encodeAddr_ok (g : Nibble) (mk : Addr → Instr) (nnn : Addr)
    (h : ∀ x y n, decodeNibbles g x y n = .ok (mk (addr12 x y n))) : decodeWord (encodeAddr g nnn) = .ok (mk nnn) := by
  rw [decodeWord_encodeAddr, h, addr12_nibbles]

/-- An instruction whose operands are a register and a byte: its group reads the byte off the two low nibbles. -/
theorem decodeWord_encodeRegByte_ok (g : Nibble) (mk : Reg → Byte → Instr) (x : Reg) (nn : Byte)
    (h : ∀ a y n, decodeNibbles g a y n = .ok (mk (regOf a) (imm8 y n))) :
    decodeWord (encodeRegByte g x nn) = .ok (mk x nn) := by
  rw [decodeWord_encodeRegByte, h, imm8_nibbles, regOf_nibbleOf]

/-- Decoding the word of a well-formed instruction gives the instruction back: one case for each row of the map. -/
theorem decodeWord_encode (i : Instr) (h : i.WellFormed) : decodeWord (encode i) = .ok i := by
  cases i with
  | cls => rfl
  | ret => rfl
  | jp nnn => exact decodeWord_encodeAddr_ok 0x1 .jp nnn fun _ _ _ => rfl
  | call nnn => exact decodeWord_encodeAddr_ok 0x2 .call nnn fun _ _ _ => rfl
  | seImm x nn => exact decodeWord_encodeRegByte_ok 0x3 .seImm x nn fun _ _ _ => rfl
  | sneImm x nn => exact decodeWord_encodeRegByte_ok 0x4 .sneImm x nn fun _ _ _ => rfl
  | seReg x y ign => exact decodeWord_encodeRegReg 0x5 x y ign
  | ldImm x nn => exact decodeWord_encodeRegByte_ok 0x6 .ldImm x nn fun _ _ _ => rfl
  | addImm x nn => exact decodeWord_encodeRegByte_ok 0x7 .addImm x nn fun _ _ _ => rfl
  | ldReg x y => exact decodeWord_encodeRegReg 0x8 x y 0x0
  | orReg x y => exact decodeWord_encodeRegReg 0x8 x y 0x1
  | andReg x y => exact decodeWord_encodeRegReg 0x8 x y 0x2
  | xorReg x y => exact decodeWord_encodeRegReg 0x8 x y 0x3
  | addReg x y => exact decodeWord_encodeRegReg 0x8 x y 0x4
  | subReg x y => exact decodeWord_encodeRegReg 0x8 x y 0x5
  | shr x y => exact decodeWord_encodeRegReg 0x8 x y 0x6
  | subn x y => exact decodeWord_encodeRegReg 0x8 x y 0x7
  | shl x y => exact decodeWord_encodeRegReg 0x8 x y 0xE
  | sneReg x y ign => exact decodeWord_encodeRegReg 0x9 x y ign
  | ldI nnn => exact decodeWord_encodeAddr_ok 0xA .ldI nnn fun _ _ _ => rfl
  | jpV0 nnn => exact decodeWord_encodeAddr_ok 0xB .jpV0 nnn fun _ _ _ => rfl
  | rnd x nn => exact decodeWord_encodeRegByte_ok 0xC .rnd x nn fun _ _ _ => rfl
  | drw x y n =>
    have hn : n < 16 := of_decide_eq_true h
    have hrows : (BitVec.ofNat 4 n).toNat = n := by rw [BitVec.toNat_ofNat, Nat.mod_eq_of_lt hn]
    have hdec : decodeWord (encode (.drw x y n)) = .ok (.drw x y (BitVec.ofNat 4 n).toNat) :=
      decodeWord_encodeRegReg 0xD x y (BitVec.ofNat 4 n)
    rw [hdec, hrows]
  | skp x => exact decodeWord_encodeRegByte 0xE x 0x9E
  | sknp x => exact decodeWord_encodeRegByte 0xE x 0xA1
  | ldVxDt x => exact decodeWord_encodeRegByte 0xF x 0x07
  | ldVxK x => exact decodeWord_encodeRegByte 0xF x 0x0A
  | ldDtVx x => exact decodeWord_encodeRegByte 0xF x 0x15
  | ldStVx x => exact decodeWord_encodeRegByte 0xF x 0x18
  | addI x => exact decodeWord_encodeRegByte 0xF x 0x1E
  | ldF x => exact decodeWord_encodeRegByte 0xF x 0x29
  | ldB x => exact decodeWord_encodeRegByte 0xF x 0x33
  | dump x => exact decodeWord_encodeRegByte 0xF x 0x55
  | load x => exact decodeWord_encodeRegByte 0xF x 0x65

/-- The two bytes of a word at the head of a byte list decode as the word does. -/
theorem decodeBytes_bytesOfWord {w : Word} {i : Instr} (h : decodeWord w = .ok i) (rest : List Byte) :
    decodeBytes (bytesOfWord w ++ rest) = .ok (i, rest) := by
  have hw : decodeWord (wordOfBytes (w.extractLsb' 8 8) (w.extractLsb' 0 8)) = .ok i := by
    rw [wordOfBytes_bytesOfWord, h]
  simp only [bytesOfWord, List.cons_append, List.nil_append, decodeBytes, hw]

/-- Settles O2: the cases are those of `decodeWord_encode`. -/
theorem decodeOfEncodeIsTheInstruction : Obligations.DecodeOfEncodeIsTheInstruction := fun i h =>
  ⟨decodeWord_encode i h, decodeBytes_bytesOfWord (decodeWord_encode i h)⟩

/-! ### Encoding what was decoded -/

/-- An address rebuilt from three nibbles gives the word of those nibbles. -/
@[simp] theorem encodeAddr_addr12 (g x y n : Nibble) : encodeAddr g (addr12 x y n) = ofNibbles g x y n := by
  refine BitVec.eq_of_getLsbD_eq fun k hk => ?_
  simp only [encodeAddr, addr12, ofNibbles, BitVec.getLsbD_append]
  interval_cases k <;> simp

/-- A byte rebuilt from two nibbles gives the word of those nibbles. -/
@[simp] theorem encodeRegByte_imm8 (g x y n : Nibble) : encodeRegByte g (regOf x) (imm8 y n) = ofNibbles g x y n := by
  refine BitVec.eq_of_getLsbD_eq fun k hk => ?_
  simp only [encodeRegByte, imm8, ofNibbles, nibbleOf_regOf, BitVec.getLsbD_append]
  interval_cases k <;> simp

@[simp] theorem encodeRegReg_regOf (g x y n : Nibble) : encodeRegReg g (regOf x) (regOf y) n = ofNibbles g x y n := rfl

/-- What a decoder answers on four nibbles is a well-formed instruction whose word has those nibbles. -/
def EncodesBack (g x y n : Nibble) (d : Except Reject Instr) : Prop :=
  ∀ i, d = .ok i → i.WellFormed ∧ encode i = ofNibbles g x y n

theorem EncodesBack.ok {g x y n : Nibble} {i : Instr} (hwf : i.WellFormed) (h : encode i = ofNibbles g x y n) :
    EncodesBack g x y n (.ok i) := by
  rintro _ ⟨⟩
  exact ⟨hwf, h⟩

theorem EncodesBack.error (g x y n : Nibble) (r : Reject) : EncodesBack g x y n (.error r) := by
  intro i h
  cases h

/-- Instructions that a selector byte picks: the byte of the encoding is the two selector nibbles. -/
theorem encodesBack_selector {g x y n : Nibble} {i : Instr} (hwf : i.WellFormed)
    (h : encode i = encodeRegByte g (regOf x) (imm8 y n)) : EncodesBack g x y n (.ok i) :=
  .ok hwf (h.trans (encodeRegByte_imm8 g x y n))

theorem encodesBack_group0 (x y n : Nibble) : EncodesBack 0x0 x y n (decodeGroup0 x y n) := by
  unfold decodeGroup0
  split
  · exact .ok rfl rfl
  · exact .ok rfl rfl
  · exact EncodesBack.error _ _ _ _ _

theorem encodesBack_group8 (x y n : Nibble) : EncodesBack 0x8 x y n (decodeGroup8 x y n) := by
  unfold decodeGroup8
  split
  case h_10 => exact EncodesBack.error _ _ _ _ _
  all_goals exact .ok rfl rfl

theorem encodesBack_groupE (x y n : Nibble) : EncodesBack 0xE x y n (decodeGroupE x y n) := by
  unfold decodeGroupE
  split
  case h_3 => exact EncodesBack.error _ _ _ _ _
  all_goals exact encodesBack_selector rfl rfl

theorem encodesBack_groupF (x y n : Nibble) : EncodesBack 0xF x y n (decodeGroupF x y n) := by
  unfold decodeGroupF
  split
  case h_10 => exact EncodesBack.error _ _ _ _ _
  all_goals exact encodesBack_selector rfl rfl

/-- The sixteenth nibble is the one that is none of the others. -/
theorem nibble_eq_last {g : Nibble} (h0 : g ≠ 0x0#4) (h1 : g ≠ 0x1#4) (h2 : g ≠ 0x2#4) (h3 : g ≠ 0x3#4)
    (h4 : g ≠ 0x4#4) (h5 : g ≠ 0x5#4) (h6 : g ≠ 0x6#4) (h7 : g ≠ 0x7#4) (h8 : g ≠ 0x8#4) (h9 : g ≠ 0x9#4)
    (hA : g ≠ 0xA#4) (hB : g ≠ 0xB#4) (hC : g ≠ 0xC#4) (hD : g ≠ 0xD#4) (hE : g ≠ 0xE#4) : g = 0xF#4 := by
  bv_omega

theorem encodesBack_decodeNibbles (g x y n : Nibble) : EncodesBack g x y n (decodeNibbles g x y n) := by
  unfold decodeNibbles
  split
  case h_1 => exact encodesBack_group0 x y n
  case h_9 => exact encodesBack_group8 x y n
  case h_14 => exact .ok (decide_eq_true n.isLt) (by simp [encode])
  case h_15 => exact encodesBack_groupE x y n
  case h_16 =>
    obtain rfl : g = 0xF#4 := by apply nibble_eq_last <;> assumption
    exact encodesBack_groupF x y n
  all_goals exact .ok rfl (by simp [encode])

/-- A word that decodes is the word of a well-formed instruction. -/
theorem encode_of_decodeWord {w : Word} {i : Instr} (h : decodeWord w = .ok i) : i.WellFormed ∧ encode i = w := by
  have := encodesBack_decodeNibbles _ _ _ _ i h
  rwa [ofNibbles_nibble] at this

/-- Settles O3: the cases are those of the decoder, group by group. -/
theorem encodeOfDecodeIsTheWord : Obligations.EncodeOfDecodeIsTheWord := fun _ _ => encode_of_decodeWord

/-! ### The opcode map -/

/-- The word of a well-formed instruction matches the row of its mnemonic. -/
theorem rowMatch (i : Instr) : Laws.RowMatch.Statement i := by
  cases i with
  | cls => exact Laws.RowMatch.cls
  | ret => exact Laws.RowMatch.ret
  | jp nnn => exact Laws.RowMatch.jp nnn
  | call nnn => exact Laws.RowMatch.call nnn
  | seImm x nn => exact Laws.RowMatch.seImm x nn
  | sneImm x nn => exact Laws.RowMatch.sneImm x nn
  | seReg x y ign => exact Laws.RowMatch.seReg x y ign
  | ldImm x nn => exact Laws.RowMatch.ldImm x nn
  | addImm x nn => exact Laws.RowMatch.addImm x nn
  | ldReg x y => exact Laws.RowMatch.ldReg x y
  | orReg x y => exact Laws.RowMatch.orReg x y
  | andReg x y => exact Laws.RowMatch.andReg x y
  | xorReg x y => exact Laws.RowMatch.xorReg x y
  | addReg x y => exact Laws.RowMatch.addReg x y
  | subReg x y => exact Laws.RowMatch.subReg x y
  | shr x y => exact Laws.RowMatch.shr x y
  | subn x y => exact Laws.RowMatch.subn x y
  | shl x y => exact Laws.RowMatch.shl x y
  | sneReg x y ign => exact Laws.RowMatch.sneReg x y ign
  | ldI nnn => exact Laws.RowMatch.ldI nnn
  | jpV0 nnn => exact Laws.RowMatch.jpV0 nnn
  | rnd x nn => exact Laws.RowMatch.rnd x nn
  | drw x y n => exact Laws.RowMatch.drw x y n
  | skp x => exact Laws.RowMatch.skp x
  | sknp x => exact Laws.RowMatch.sknp x
  | ldVxDt x => exact Laws.RowMatch.ldVxDt x
  | ldVxK x => exact Laws.RowMatch.ldVxK x
  | ldDtVx x => exact Laws.RowMatch.ldDtVx x
  | ldStVx x => exact Laws.RowMatch.ldStVx x
  | addI x => exact Laws.RowMatch.addI x
  | ldF x => exact Laws.RowMatch.ldF x
  | ldB x => exact Laws.RowMatch.ldB x
  | dump x => exact Laws.RowMatch.dump x
  | load x => exact Laws.RowMatch.load x

/-- A word that decodes is admitted by the row of its instruction. -/
theorem row_of_decodeWord {w : Word} {i : Instr} (h : decodeWord w = .ok i) :
    ∃ r ∈ opcodeMap, r.mnemonic = i.mnemonic ∧ r.admits w = true := by
  obtain ⟨hwf, rfl⟩ := encode_of_decodeWord h
  exact rowMatch i hwf

/-- Two rows with one mnemonic are one row. -/
theorem opcodeMap_mnemonic_injective :
    ∀ r ∈ opcodeMap, ∀ r' ∈ opcodeMap, r.mnemonic = r'.mnemonic → r = r' := by decide

/-- Masking works nibble by nibble. -/
theorem ofNibbles_and (g x y n g' x' y' n' : Nibble) :
    ofNibbles g x y n &&& ofNibbles g' x' y' n' = ofNibbles (g &&& g') (x &&& x') (y &&& y') (n &&& n') := by
  refine BitVec.eq_of_getLsbD_eq fun k hk => ?_
  simp only [ofNibbles, BitVec.getLsbD_append, BitVec.getLsbD_and]
  interval_cases k <;> simp

theorem ofNibbles_inj {g x y n g' x' y' n' : Nibble} :
    ofNibbles g x y n = ofNibbles g' x' y' n' ↔ g = g' ∧ x = x' ∧ y = y' ∧ n = n' := by
  constructor
  · intro h
    have fields := nibble_ofNibbles g x y n
    rw [h] at fields
    simpa [eq_comm] using fields
  · rintro ⟨rfl, rfl, rfl, rfl⟩
    rfl

/-- Every word the row admits decodes to an instruction of the row. -/
def OpcodeRow.Decodes (r : OpcodeRow) : Prop :=
  ∀ w, r.admits w = true → ∃ i, decodeWord w = .ok i ∧ i.mnemonic = r.mnemonic

/-- A row whose mask and pattern are given by nibbles: it is enough to decode the nibbles that match. -/
theorem decodes_of_nibbles {m : String} {p k : Word} (pg px py pn kg kx ky kn : Nibble)
    (hp : p = ofNibbles pg px py pn) (hk : k = ofNibbles kg kx ky kn)
    (h : ∀ g x y n, g &&& kg = pg → x &&& kx = px → y &&& ky = py → n &&& kn = pn →
      ∃ i, decodeNibbles g x y n = .ok i ∧ i.mnemonic = m) : OpcodeRow.Decodes ⟨m, p, k⟩ := by
  intro w hw
  have hmask : w &&& k = p := by simpa [OpcodeRow.admits] using hw
  rw [← ofNibbles_nibble w, hk, hp, ofNibbles_and, ofNibbles_inj] at hmask
  obtain ⟨hg, hx, hy, hn⟩ := hmask
  exact h _ _ _ _ hg hx hy hn

/-- A row selected by the top nibble alone (mask F000). -/
theorem decodes_top {m : String} {p : Word} (g : Nibble) (hp : p = ofNibbles g 0 0 0)
    (h : ∀ x y n, ∃ i, decodeNibbles g x y n = .ok i ∧ i.mnemonic = m) : OpcodeRow.Decodes ⟨m, p, 0xF000⟩ := by
  refine decodes_of_nibbles g 0 0 0 (BitVec.allOnes 4) 0 0 0 hp rfl fun g' x y n hg _ _ _ => ?_
  obtain rfl : g' = g := BitVec.and_allOnes.symm.trans hg
  exact h x y n

/-- A row selected by the top and the low nibble (mask F00F). -/
theorem decodes_topLow {m : String} {p : Word} (g n : Nibble) (hp : p = ofNibbles g 0 0 n)
    (h : ∀ x y, ∃ i, decodeNibbles g x y n = .ok i ∧ i.mnemonic = m) : OpcodeRow.Decodes ⟨m, p, 0xF00F⟩ := by
  refine decodes_of_nibbles g 0 0 n (BitVec.allOnes 4) 0 0 (BitVec.allOnes 4) hp rfl fun g' x y n' hg _ _ hn => ?_
  obtain rfl : g' = g := BitVec.and_allOnes.symm.trans hg
  obtain rfl : n' = n := BitVec.and_allOnes.symm.trans hn
  exact h x y

/-- A row selected by the top nibble and the low byte (mask F0FF). -/
theorem decodes_topByte {m : String} {p : Word} (g y n : Nibble) (hp : p = ofNibbles g 0 y n)
    (h : ∀ x, ∃ i, decodeNibbles g x y n = .ok i ∧ i.mnemonic = m) : OpcodeRow.Decodes ⟨m, p, 0xF0FF⟩ := by
  refine decodes_of_nibbles g 0 y n (BitVec.allOnes 4) 0 (BitVec.allOnes 4) (BitVec.allOnes 4) hp rfl
    fun g' x y' n' hg _ hy hn => ?_
  obtain rfl : g' = g := BitVec.and_allOnes.symm.trans hg
  obtain rfl : y' = y := BitVec.and_allOnes.symm.trans hy
  obtain rfl : n' = n := BitVec.and_allOnes.symm.trans hn
  exact h x

/-- A row of one word (mask FFFF). -/
theorem decodes_word {m : String} {p : Word} (h : ∃ i, decodeWord p = .ok i ∧ i.mnemonic = m) :
    OpcodeRow.Decodes ⟨m, p, 0xFFFF⟩ := by
  intro w hw
  have hmask : w &&& BitVec.allOnes 16 = p := eq_of_beq hw
  obtain rfl : w = p := BitVec.and_allOnes.symm.trans hmask
  exact h

/-- Every row of the map decodes: the first two rows are single words, the others go by their mask. -/
theorem opcodeMap_decodes : ∀ r ∈ opcodeMap, r.Decodes := by
  simp only [opcodeMap, opcodeMapLow, opcodeMapHigh, List.forall_mem_append, List.forall_mem_cons,
    List.not_mem_nil, false_imp_iff, implies_true, and_true]
  refine ⟨⟨decodes_word ⟨_, rfl, rfl⟩, decodes_word ⟨_, rfl, rfl⟩, ?_⟩, ?_⟩
  · refine ⟨decodes_top 0x1 rfl ?_, decodes_top 0x2 rfl ?_, decodes_top 0x3 rfl ?_, decodes_top 0x4 rfl ?_,
      decodes_top 0x5 rfl ?_, decodes_top 0x6 rfl ?_, decodes_top 0x7 rfl ?_, decodes_topLow 0x8 0x0 rfl ?_,
      decodes_topLow 0x8 0x1 rfl ?_, decodes_topLow 0x8 0x2 rfl ?_, decodes_topLow 0x8 0x3 rfl ?_,
      decodes_topLow 0x8 0x4 rfl ?_, decodes_topLow 0x8 0x5 rfl ?_, decodes_topLow 0x8 0x6 rfl ?_,
      decodes_topLow 0x8 0x7 rfl ?_, decodes_topLow 0x8 0xE rfl ?_, decodes_top 0x9 rfl ?_,
      decodes_top 0xA rfl ?_, decodes_top 0xB rfl ?_⟩
    all_goals intros; exact ⟨_, rfl, rfl⟩
  · refine ⟨decodes_top 0xC rfl ?_, decodes_top 0xD rfl ?_, decodes_topByte 0xE 0x9 0xE rfl ?_,
      decodes_topByte 0xE 0xA 0x1 rfl ?_, decodes_topByte 0xF 0x0 0x7 rfl ?_, decodes_topByte 0xF 0x0 0xA rfl ?_,
      decodes_topByte 0xF 0x1 0x5 rfl ?_, decodes_topByte 0xF 0x1 0x8 rfl ?_, decodes_topByte 0xF 0x1 0xE rfl ?_,
      decodes_topByte 0xF 0x2 0x9 rfl ?_, decodes_topByte 0xF 0x3 0x3 rfl ?_, decodes_topByte 0xF 0x5 0x5 rfl ?_,
      decodes_topByte 0xF 0x6 0x5 rfl ?_⟩
    all_goals intros; exact ⟨_, rfl, rfl⟩

/-- A word decodes to an instruction of a row exactly when the row admits it. -/
theorem decodes_iff_admits {r : OpcodeRow} (hr : r ∈ opcodeMap) (w : Word) :
    (∃ i, decodeWord w = .ok i ∧ i.mnemonic = r.mnemonic) ↔ r.admits w = true := by
  constructor
  · rintro ⟨i, hi, hm⟩
    obtain ⟨r', hr', hm', ha⟩ := row_of_decodeWord hi
    obtain rfl := opcodeMap_mnemonic_injective r' hr' r hr (hm'.trans hm)
    exact ha
  · exact opcodeMap_decodes r hr w

/-- Settles O4: two rows with a word in common name the mnemonic of the one instruction the word decodes to. -/
theorem decoderAgreesWithTheOpcodeMap : Obligations.DecoderAgreesWithTheOpcodeMap := by
  refine ⟨fun w r hr => decodes_iff_admits hr w, fun w r r' hr hr' ha ha' => ?_⟩
  obtain ⟨i, hi, hm⟩ := (decodes_iff_admits hr w).2 ha
  obtain ⟨i', hi', hm'⟩ := (decodes_iff_admits hr' w).2 ha'
  obtain rfl : i = i' := Except.ok.inj (hi.symm.trans hi')
  exact opcodeMap_mnemonic_injective r hr r' hr' (hm.symm.trans hm')

/-- Settles O1: each word is a closed term of the decoder. -/
theorem sampleWordsDecodeAsTheMapSays : Obligations.SampleWordsDecodeAsTheMapSays := by
  unfold Obligations.SampleWordsDecodeAsTheMapSays
  decide

/-- Settles O6: both groups answer an instruction for every low nibble, and its meaning does not name the nibble. -/
theorem lowNibbleOfGroups5And9IsIgnored : Obligations.LowNibbleOfGroups5And9IsIgnored := fun x y n =>
  ⟨decodeWord_encode (.seReg x y n) rfl, decodeWord_encode (.sneReg x y n) rfl, fun _ _ => ⟨rfl, rfl⟩⟩

/-! ### The groups with a selector -/

/-- The register whose number is a nibble. -/
theorem regOf_eq_of_val {x : Reg} {n : Nibble} (h : x.val = n.toNat) : regOf n = x := Fin.ext h.symm

/-- The low byte of a word is its two low nibbles. -/
theorem lowByte_eq_imm8 (w : Word) : w.extractLsb' 0 8 = imm8 (nibble w 1) (nibble w 0) := by
  refine BitVec.eq_of_getLsbD_eq fun k hk => ?_
  simp only [imm8, nibble, BitVec.getLsbD_append, BitVec.getLsbD_extractLsb']
  interval_cases k <;> simp

theorem imm8_inj {y n y' n' : Nibble} : imm8 y n = imm8 y' n' ↔ y = y' ∧ n = n' := by
  constructor
  · intro h
    have hword := congrArg (encodeRegByte 0 (regOf 0)) h
    simp only [encodeRegByte_imm8, ofNibbles_inj] at hword
    simpa using hword
  · rintro ⟨rfl, rfl⟩
    rfl

/-- Two nibbles form no byte whose nibbles they are not. -/
theorem imm8_ne {y n : Nibble} (b : Byte) (h : y = b.extractLsb' 4 4 → n = b.extractLsb' 0 4 → False) :
    imm8 y n ≠ b := fun he =>
  have hb := imm8_inj.1 (he.trans (imm8_nibbles b).symm)
  h hb.1 hb.2

theorem decodeWord_of_top {w : Word} {g : Nibble} (h : nibble w 3 = g) :
    decodeWord w = decodeNibbles g (nibble w 2) (nibble w 1) (nibble w 0) := by
  rw [decodeWord, h]

theorem eq_ofNibbles_of_top {w : Word} {g : Nibble} (h : nibble w 3 = g) :
    ofNibbles g (nibble w 2) (nibble w 1) (nibble w 0) = w := by
  rw [← h, ofNibbles_nibble]

theorem decodeGroup0_eq (x y n : Nibble) :
    decodeGroup0 x y n =
      if ofNibbles 0x0 x y n = 0x00E0 then .ok .cls else if ofNibbles 0x0 x y n = 0x00EE then .ok .ret
      else .error (.unrecognizedGroup0 (ofNibbles 0x0 x y n)) := by
  unfold decodeGroup0
  split
  case h_3 hcls hret =>
    rw [if_neg fun h => ?_, if_neg fun h => ?_]
    · obtain ⟨-, hx, hy, hn⟩ := (ofNibbles_inj (g' := 0x0) (x' := 0x0) (y' := 0xE) (n' := 0xE)).1 h
      exact hret hx hy hn
    · obtain ⟨-, hx, hy, hn⟩ := (ofNibbles_inj (g' := 0x0) (x' := 0x0) (y' := 0xE) (n' := 0x0)).1 h
      exact hcls hx hy hn
  all_goals rfl

theorem decodeGroup8_eq (x y n : Nibble) :
    decodeGroup8 x y n =
      if n = 0x0#4 then .ok (.ldReg (regOf x) (regOf y)) else if n = 0x1#4 then .ok (.orReg (regOf x) (regOf y))
      else if n = 0x2#4 then .ok (.andReg (regOf x) (regOf y)) else if n = 0x3#4 then .ok (.xorReg (regOf x) (regOf y))
      else if n = 0x4#4 then .ok (.addReg (regOf x) (regOf y)) else if n = 0x5#4 then .ok (.subReg (regOf x) (regOf y))
      else if n = 0x6#4 then .ok (.shr (regOf x) (regOf y)) else if n = 0x7#4 then .ok (.subn (regOf x) (regOf y))
      else if n = 0xE#4 then .ok (.shl (regOf x) (regOf y))
      else .error (.unrecognizedGroup8 (ofNibbles 0x8 x y n)) := by
  unfold decodeGroup8
  split
  case h_10 h0 h1 h2 h3 h4 h5 h6 h7 hE =>
    rw [if_neg h0, if_neg h1, if_neg h2, if_neg h3, if_neg h4, if_neg h5, if_neg h6, if_neg h7, if_neg hE]
  all_goals rfl

theorem decodeGroupE_eq (x y n : Nibble) :
    decodeGroupE x y n =
      if imm8 y n = 0x9E#8 then .ok (.skp (regOf x)) else if imm8 y n = 0xA1#8 then .ok (.sknp (regOf x))
      else .error (.unrecognizedGroupE (ofNibbles 0xE x y n)) := by
  unfold decodeGroupE
  split
  case h_3 h9E hA1 => rw [if_neg (imm8_ne 0x9E#8 h9E), if_neg (imm8_ne 0xA1#8 hA1)]
  all_goals rfl

theorem decodeGroupF_eq (x y n : Nibble) :
    decodeGroupF x y n =
      if imm8 y n = 0x07#8 then .ok (.ldVxDt (regOf x)) else if imm8 y n = 0x0A#8 then .ok (.ldVxK (regOf x))
      else if imm8 y n = 0x15#8 then .ok (.ldDtVx (regOf x)) else if imm8 y n = 0x18#8 then .ok (.ldStVx (regOf x))
      else if imm8 y n = 0x1E#8 then .ok (.addI (regOf x)) else if imm8 y n = 0x29#8 then .ok (.ldF (regOf x))
      else if imm8 y n = 0x33#8 then .ok (.ldB (regOf x)) else if imm8 y n = 0x55#8 then .ok (.dump (regOf x))
      else if imm8 y n = 0x65#8 then .ok (.load (regOf x))
      else .error (.unrecognizedGroupF (ofNibbles 0xF x y n)) := by
  unfold decodeGroupF
  split
  case h_10 h07 h0A h15 h18 h1E h29 h33 h55 h65 =>
    rw [if_neg (imm8_ne 0x07#8 h07), if_neg (imm8_ne 0x0A#8 h0A), if_neg (imm8_ne 0x15#8 h15),
      if_neg (imm8_ne 0x18#8 h18), if_neg (imm8_ne 0x1E#8 h1E), if_neg (imm8_ne 0x29#8 h29),
      if_neg (imm8_ne 0x33#8 h33), if_neg (imm8_ne 0x55#8 h55), if_neg (imm8_ne 0x65#8 h65)]
  all_goals rfl

/-- Settles O5: each group's decoder is the chain of its selectors. -/
theorem selectorGroupsDecodeByTheirSelector : Obligations.SelectorGroupsDecodeByTheirSelector := by
  refine ⟨fun w hg => ?_, fun w hg x y hx hy => ?_, fun w hg x hx => ?_, fun w hg x hx => ?_⟩
  · have h := decodeGroup0_eq (nibble w 2) (nibble w 1) (nibble w 0)
    rw [eq_ofNibbles_of_top hg] at h
    exact (decodeWord_of_top hg).trans h
  · have h := decodeGroup8_eq (nibble w 2) (nibble w 1) (nibble w 0)
    rw [regOf_eq_of_val hx, regOf_eq_of_val hy, eq_ofNibbles_of_top hg] at h
    exact (decodeWord_of_top hg).trans h
  · have h := decodeGroupE_eq (nibble w 2) (nibble w 1) (nibble w 0)
    rw [regOf_eq_of_val hx, eq_ofNibbles_of_top hg, ← lowByte_eq_imm8] at h
    exact (decodeWord_of_top hg).trans h
  · have h := decodeGroupF_eq (nibble w 2) (nibble w 1) (nibble w 0)
    rw [regOf_eq_of_val hx, eq_ofNibbles_of_top hg, ← lowByte_eq_imm8] at h
    exact (decodeWord_of_top hg).trans h

end Sys2Proof
end

/-! The meaning of each instruction through the shared operations: one equation for each outcome of `exec`. The
equations of the jump, the immediate skips, the loads and add immediate stand with their families above. -/

section
namespace Sys2Proof.Machine

variable (s : State)

/-! ### Control transfer -/

theorem exec_jpV0 (nnn : Addr) : exec (.jpV0 nnn) s = .next (s.setPc (s.absolutePlusV0 nnn)) := rfl

theorem exec_seReg (x y : Reg) (n : Nibble) : exec (.seReg x y n) s = skipIf (s.reg x == s.reg y) s := rfl

theorem exec_sneReg (x y : Reg) (n : Nibble) : exec (.sneReg x y n) s = skipIf (s.reg x != s.reg y) s := rfl

/-- The state after a call below depth 16 (R101). -/
def State.called (h : s.sp.val < 16) (a : Word) : State :=
  { s with stack := s.stack.set s.sp.val s.pc, sp := ⟨s.sp.val + 1, Nat.succ_lt_succ h⟩, pc := a }

/-- The entry a return pops above depth 0 (R103). -/
def State.top (_h : s.sp.val ≠ 0) : Word := s.stack[s.sp.val - 1]'(by have := s.sp.isLt; omega)

/-- The state after a return above depth 0 (R103). -/
def State.returned (h : s.sp.val ≠ 0) : State :=
  { s with sp := ⟨s.sp.val - 1, by have := s.sp.isLt; omega⟩, pc := s.top h + 2 }

theorem exec_call_room (nnn : Addr) (h : s.sp.val < 16) :
    exec (.call nnn) s = .next (s.called h (absolute nnn)) := by
  change execCall nnn s = _
  rw [execCall, s.push_room s.pc h]
  rfl

theorem exec_call_full (nnn : Addr) (h : s.sp.val = 16) :
    exec (.call nnn) s = .next { s with fault := some (.stackOverflow s.pc (encode (.call nnn))) } := by
  change execCall nnn s = _
  rw [execCall, s.push_full s.pc h, raise_eq]

theorem exec_ret_active (h : s.sp.val ≠ 0) : exec .ret s = .next (s.returned h) := by
  change execRet s = _
  rw [execRet, s.pop_active h]
  rfl

theorem exec_ret_empty (h : s.sp.val = 0) :
    exec .ret s = .next { s with fault := some (.stackUnderflow s.pc (encode .ret)) } := by
  change execRet s = _
  rw [execRet, s.pop_empty h, raise_eq]

/-! ### Register operations -/

theorem exec_orReg (x y : Reg) : exec (.orReg x y) s = resultThenZeroFlag x (s.reg x ||| s.reg y) s := rfl

theorem exec_andReg (x y : Reg) : exec (.andReg x y) s = resultThenZeroFlag x (s.reg x &&& s.reg y) s := rfl

theorem exec_xorReg (x y : Reg) : exec (.xorReg x y) s = resultThenZeroFlag x (s.reg x ^^^ s.reg y) s := rfl

theorem exec_addReg (x y : Reg) :
    exec (.addReg x y) s = flagThenResult x (carryOut (s.reg x) (s.reg y)) (s.reg x + s.reg y) s := rfl

theorem exec_subReg (x y : Reg) :
    exec (.subReg x y) s = flagThenResult x (noBorrow (s.reg x) (s.reg y)) (s.reg x - s.reg y) s := rfl

theorem exec_subn (x y : Reg) :
    exec (.subn x y) s = flagThenResult x (noBorrow (s.reg y) (s.reg x)) (s.reg y - s.reg x) s := rfl

theorem exec_shr (x y : Reg) : exec (.shr x y) s = flagThenResult x (lowBit (s.reg y)) (s.reg y >>> 1) s := rfl

theorem exec_shl (x y : Reg) : exec (.shl x y) s = flagThenResult x (highBit (s.reg y)) (s.reg y <<< 1) s := rfl

theorem exec_rnd (x : Reg) (nn : Byte) :
    exec (.rnd x nn) s = complete (s.takeDraw.setReg x (Config.freeByte s.draws &&& s.randomMask nn)) := rfl

/-! ### Index register and memory -/

theorem exec_ldI (nnn : Addr) : exec (.ldI nnn) s = complete (s.setI (absolute nnn)) := rfl

theorem exec_ldF (x : Reg) : exec (.ldF x) s = complete (s.setI (glyphAddress (s.reg x))) := rfl

theorem exec_addI (x : Reg) :
    exec (.addI x) s =
      complete ((s.setFlag (indexOverflow s.i (s.reg x))).setI (s.i + (s.reg x).setWidth 16)) := rfl

theorem exec_ldB (x : Reg) :
    exec (.ldB x) s =
      whenInBounds (s.indexed 2) (.ldB x) s (complete (s.writeBytes (s.indexed 0) (digits (s.reg x)))) := rfl

theorem exec_dump (x : Reg) :
    exec (.dump x) s =
      whenInBounds (s.indexed x.val) (.dump x) s
        (complete ((s.writeBytes (s.indexed 0) (s.regsTo x)).setI (s.indexPast x))) := rfl

theorem exec_load (x : Reg) :
    exec (.load x) s =
      whenInBounds (s.indexed x.val) (.load x) s (complete ((s.loadRegs x).setI (s.indexPast x))) := rfl

/-! ### Display -/

theorem exec_cls : exec .cls s = complete (s.redrawWith Display.clear) := rfl

/-- With no rows, or with the last row's address in memory, the sprite is drawn (R162). -/
theorem exec_drw_inside (x y : Reg) {n : Nat} (h : n = 0 ∨ s.indexed (n - 1) ≤ 4095) :
    exec (.drw x y n) s = complete (s.drawSprite x y (s.readBytes (s.indexed 0) n)) := by
  cases n with
  | zero => rfl
  | succ k => exact whenInBounds_inside s (h.resolve_left (Nat.succ_ne_zero k))

theorem exec_drw_outside (x y : Reg) {n : Nat} (hn : n ≠ 0) (h : 4095 < s.indexed (n - 1)) :
    exec (.drw x y n) s =
      .next { s with fault := some (.dataOutOfBounds (s.indexed (n - 1)) s.pc (encode (.drw x y n))) } := by
  obtain ⟨k, rfl⟩ := Nat.exists_eq_succ_of_ne_zero hn
  exact whenInBounds_outside s h

/-! ### Keys and timers -/

theorem exec_skp (x : Reg) : exec (.skp x) s = skipOnKey true x (.skp x) s := rfl

theorem exec_sknp (x : Reg) : exec (.sknp x) s = skipOnKey false x (.sknp x) s := rfl

/-- A register value below 16 names a key, and the skip tests it (R172). -/
theorem skipOnKey_named (down : Bool) (x : Reg) (i : Instr) (h : (s.reg x).toNat < 16) :
    skipOnKey down x i s = skipIf (s.key[(s.reg x).toNat] == down) s := by
  rw [skipOnKey, s.selectedKey_some x h]

theorem skipOnKey_unnamed (down : Bool) (x : Reg) (i : Instr) (h : ¬ (s.reg x).toNat < 16) :
    skipOnKey down x i s = .next { s with fault := some (.keyIndexOutOfRange (s.reg x) s.pc (encode i)) } := by
  rw [skipOnKey, s.selectedKey_none x h, raise_eq]

theorem exec_ldVxDt (x : Reg) : exec (.ldVxDt x) s = complete (s.setReg x s.dt) := rfl

theorem exec_ldDtVx (x : Reg) : exec (.ldDtVx x) s = complete (s.setDt (s.reg x)) := rfl

theorem exec_ldStVx (x : Reg) : exec (.ldStVx x) s = complete (s.setSt (s.reg x)) := rfl

theorem exec_ldVxK_stalled (x : Reg) (h : s.downKeys = []) : exec (.ldVxK x) s = .next s := by
  change execLdVxK x s = _
  rw [execLdVxK, h]

/-- With a key down, wait-for-key completes with the index of one that is down; only the count of free values tells
whether a choice was made (R174). -/
theorem exec_ldVxK_taken (x : Reg) (h : s.downKeys ≠ []) :
    ∃ k n, s.key[k.val] = true ∧ exec (.ldVxK x) s = complete (({ s with draws := n }).setReg x (keyByte k)) := by
  change ∃ k n, _ ∧ execLdVxK x s = _
  rcases hd : s.downKeys with _ | ⟨k, _ | ⟨k', ks⟩⟩
  · exact absurd hd h
  · refine ⟨k, s.draws, (s.mem_downKeys k).1 (by simp [hd]), ?_⟩
    rw [execLdVxK, hd]
  · refine ⟨pickKey s.draws k (k' :: ks), s.draws + 1, (s.mem_downKeys _).1 (hd ▸ pickKey_mem _ _ _), ?_⟩
    rw [execLdVxK, hd]
    rfl

end Sys2Proof.Machine
end

/-! The whole machine (spec/10_state.md, spec/40_step_cycle.md): every instruction has one of a few effects, every step
ends one of them, and the invariants follow from the effects. -/

section
namespace Sys2Proof.Machine

open Sys2Proof.Claims

/-- The instructions of the table of R12, and those that name `V[0xF]` as their destination. -/
def MayWriteFlag (i : Instr) : Prop :=
  (∃ x y, i = .orReg x y ∨ i = .andReg x y ∨ i = .xorReg x y ∨ i = .addReg x y ∨ i = .subReg x y ∨ i = .subn x y ∨
    i = .shr x y ∨ i = .shl x y ∨ (∃ n, i = .drw x y n) ∨ i = .addI x) ∨
  (∃ nn, i = .ldImm flagReg nn ∨ i = .addImm flagReg nn ∨ i = .rnd flagReg nn) ∨
  (∃ y, i = .ldReg flagReg y) ∨ i = .ldVxDt flagReg ∨ i = .ldVxK flagReg ∨ i = .load flagReg

/-- All that executing `i` can make of the state `s`: a latched violation, or one kind of change and its new pc. -/
inductive Effect (s : State) (i : Instr) : State → Prop
  /-- a violation: nothing but the latch -/
  | latched (v : Violation) : Effect s i { s with fault := some v }
  /-- wait-for-key with no key down -/
  | stalled : Effect s i s
  /-- jumps and skips: nothing but the pc -/
  | jumped (a : Word) (ha : a = s.pc + 2 ∨ a = s.pc + 4 ∨ a.toNat ≤ 0x10FE) : Effect s i (s.setPc a)
  | called (nnn : Addr) (h : s.sp.val < 16) (hi : i = .call nnn) : Effect s i (s.called h (absolute nnn))
  | returned (h : s.sp.val ≠ 0) (hi : i = .ret) : Effect s i (s.returned h)
  /-- registers, `I` and the count of free values -/
  | wrote (v : Vector Byte 16) (a : Word) (n : Nat) (hv : MayWriteFlag i ∨ v[15] = s.v[15]) :
      Effect s i (State.advance { s with v := v, i := a, draws := n })
  | stored (a : Nat) (bs : List Byte) (j : Word) (hi : ∃ x, i = .ldB x ∨ i = .dump x) :
      Effect s i ((s.writeBytes a bs).setI j).advance
  | drew (v : Vector Byte 16) (d : Display) (hi : i = .cls ∨ ∃ x y n, i = .drw x y n)
      (hv : MayWriteFlag i ∨ v[15] = s.v[15]) : Effect s i (State.advance { s with v := v, disp := d, redraw := true })
  | timed (d e : Byte) (he : e = s.st ∨ ∃ x, i = .ldStVx x) : Effect s i (State.advance { s with dt := d, st := e })

/-- The answer is a next state, and an effect of the instruction. -/
def Answers (s : State) (i : Instr) (r : Result) : Prop := ∃ t, r = .next t ∧ Effect s i t

section
variable {s : State} {i : Instr}

/-! ### What each shared operation answers -/

theorem Answers.next {t : State} (h : Effect s i t) : Answers s i (.next t) := ⟨t, rfl, h⟩

theorem Answers.skipIf (c : Bool) : Answers s i (skipIf c s) := by
  refine .next (.jumped _ ?_)
  cases c
  · exact .inl rfl
  · exact .inr (.inl rfl)

theorem Answers.skipOnKey (down : Bool) (x : Reg) (j : Instr) : Answers s i (skipOnKey down x j s) := by
  by_cases h : (s.reg x).toNat < 16
  · rw [skipOnKey_named s down x j h]
    exact .skipIf _
  · rw [skipOnKey_unnamed s down x j h]
    exact .next (.latched _)

theorem Answers.whenInBounds {last : Nat} {j : Instr} {r : Result} (h : Answers s i r) :
    Answers s i (whenInBounds last j s r) := by
  rcases whenInBounds_cases s last j r with ⟨_, e⟩ | ⟨_, e⟩
  · rwa [e]
  · rw [e]
    exact .next (.latched _)

/-- A flag writer may write any registers. -/
theorem Answers.flagWriter {v : Vector Byte 16} {a : Word} (h : MayWriteFlag i) :
    Answers s i (complete { s with v := v, i := a }) := .next (.wrote v a s.draws (.inl h))

/-- A write of one register writes the flag register only as the destination. -/
theorem Answers.setReg (x : Reg) (b : Byte) (n : Nat) (h : x = flagReg → MayWriteFlag i) :
    Answers s i (complete (({ s with draws := n }).setReg x b)) := by
  refine .next (.wrote (s.v.set x.val b) s.i n ?_)
  by_cases hx : x = flagReg
  · exact .inl (h hx)
  · have hv : x.val ≠ 15 := fun e => hx (Fin.ext e)
    exact .inr (Vector.getElem_set_ne _ _ hv)

theorem Answers.setI (a : Word) : Answers s i (complete (s.setI a)) := .next (.wrote s.v a s.draws (.inr rfl))

theorem Answers.loadRegs (x : Reg) (a : Word) (h : x = flagReg → MayWriteFlag i) :
    Answers s i (complete ((s.loadRegs x).setI a)) := by
  have kept : x ≠ flagReg → (s.loadRegs x).reg flagReg = s.reg flagReg := fun hx =>
    (s.loadRegs_reg x flagReg).trans (if_neg fun hle => hx (Fin.le_antisymm (Fin.le_last x) hle))
  obtain ⟨v, hv⟩ : ∃ v, s.loadRegs x = { s with v := v } := ⟨_, rfl⟩
  rw [hv] at kept ⊢
  refine .next (.wrote v a s.draws ?_)
  by_cases hx : x = flagReg
  · exact .inl (h hx)
  · exact .inr (kept hx)

/-- The sum of a 12-bit address and a byte does not wrap (R108). -/
theorem absolutePlusV0_toNat (s : State) (nnn : Addr) :
    (s.absolutePlusV0 nnn).toNat = nnn.toNat + (s.reg 0).toNat := by
  have hbyte : ((s.reg 0).setWidth 16).toNat = (s.reg 0).toNat := BitVec.toNat_setWidth_of_le (by decide)
  rw [State.absolutePlusV0, BitVec.toNat_add_of_lt] <;> rw [absolute_toNat, hbyte]
  omega

theorem absolutePlusV0_le (s : State) (nnn : Addr) : (s.absolutePlusV0 nnn).toNat ≤ 0x10FE := by
  rw [absolutePlusV0_toNat]
  omega

/-! ### Every instruction -/

/-- Every instruction answers one of its effects. -/
theorem exec_answers (i : Instr) (s : State) : Answers s i (exec i s) := by
  cases i with
  | cls => exact .next (.drew s.v Display.clear (.inl rfl) (.inr rfl))
  | ret =>
    by_cases h : s.sp.val = 0
    · exact exec_ret_empty s h ▸ .next (.latched _)
    · exact exec_ret_active s h ▸ .next (.returned h rfl)
  | jp nnn => exact .next (.jumped _ (.inr (.inr (by rw [absolute_toNat]; omega))))
  | call nnn =>
    by_cases h : s.sp.val < 16
    · exact exec_call_room s nnn h ▸ .next (.called nnn h rfl)
    · exact exec_call_full s nnn (by omega) ▸ .next (.latched _)
  | seImm x nn => exact .skipIf _
  | sneImm x nn => exact .skipIf _
  | seReg x y ign => exact .skipIf _
  | ldImm x nn => exact .setReg x nn s.draws fun h => .inr (.inl ⟨nn, .inl (h ▸ rfl)⟩)
  | addImm x nn => exact .setReg x _ s.draws fun h => .inr (.inl ⟨nn, .inr (.inl (h ▸ rfl))⟩)
  | ldReg x y => exact .setReg x _ s.draws fun h => .inr (.inr (.inl ⟨y, h ▸ rfl⟩))
  | orReg x y => exact .flagWriter (.inl ⟨x, y, by simp⟩)
  | andReg x y => exact .flagWriter (.inl ⟨x, y, by simp⟩)
  | xorReg x y => exact .flagWriter (.inl ⟨x, y, by simp⟩)
  | addReg x y => exact .flagWriter (.inl ⟨x, y, by simp⟩)
  | subReg x y => exact .flagWriter (.inl ⟨x, y, by simp⟩)
  | shr x y => exact .flagWriter (.inl ⟨x, y, by simp⟩)
  | subn x y => exact .flagWriter (.inl ⟨x, y, by simp⟩)
  | shl x y => exact .flagWriter (.inl ⟨x, y, by simp⟩)
  | sneReg x y ign => exact .skipIf _
  | ldI nnn => exact .setI _
  | jpV0 nnn => exact .next (.jumped _ (.inr (.inr (absolutePlusV0_le s nnn))))
  | rnd x nn => exact .setReg x _ (s.draws + 1) fun h => .inr (.inl ⟨nn, .inr (.inr (h ▸ rfl))⟩)
  | drw x y n =>
    by_cases h : n = 0 ∨ s.indexed (n - 1) ≤ 4095
    · rw [exec_drw_inside s x y h]
      exact .next (.drew _ _ (.inr ⟨x, y, n, rfl⟩) (.inl (.inl ⟨x, y, by simp⟩)))
    · rw [not_or, Nat.not_le] at h
      exact exec_drw_outside s x y h.1 h.2 ▸ .next (.latched _)
  | skp x => exact exec_skp s x ▸ .skipOnKey ..
  | sknp x => exact exec_sknp s x ▸ .skipOnKey ..
  | ldVxDt x => exact .setReg x _ s.draws fun h => .inr (.inr (.inr (.inl (h ▸ rfl))))
  | ldVxK x =>
    by_cases h : s.downKeys = []
    · exact exec_ldVxK_stalled s x h ▸ .next .stalled
    · obtain ⟨k, n, -, hexec⟩ := exec_ldVxK_taken s x h
      exact hexec ▸ .setReg x _ n fun h => .inr (.inr (.inr (.inr (.inl (h ▸ rfl)))))
  | ldDtVx x => exact .next (.timed _ _ (.inl rfl))
  | ldStVx x => exact .next (.timed _ _ (.inr ⟨x, rfl⟩))
  | addI x => exact .flagWriter (.inl ⟨x, x, by simp⟩)
  | ldF x => exact .setI _
  | ldB x => exact .whenInBounds (.next (.stored (s.indexed 0) (digits (s.reg x)) s.i ⟨x, .inl rfl⟩))
  | dump x => exact .whenInBounds (.next (.stored _ _ _ ⟨x, .inr rfl⟩))
  | load x => exact .whenInBounds (.loadRegs x _ fun h => .inr (.inr (.inr (.inr (.inr (h ▸ rfl))))))

end
end Sys2Proof.Machine
end

/-! What the effects have in common, what a step can do, and what the host's events keep. -/

section
namespace Sys2Proof.Machine

open Sys2Proof.Claims

section
variable {s t : State} {i : Instr}

/-! ### What the effects have in common -/

theorem exec_total (i : Instr) (s : State) : ∃ t, exec i s = .next t :=
  (exec_answers i s).imp fun _ h => h.1

theorem effect_of_exec (h : exec i s = .next t) : Effect s i t := by
  obtain ⟨u, hu, he⟩ := exec_answers i s
  obtain rfl : u = t := Host.Outcome.next.inj (hu.symm.trans h)
  exact he

/-- No effect but a latched violation touches the latch. -/
theorem Effect.fault (h : Effect s i t) : t.fault = s.fault ∨ ∃ v, t = { s with fault := some v } := by
  cases h with
  | latched v => exact .inr ⟨v, rfl⟩
  | stalled | jumped | called | returned | wrote | stored | drew | timed => exact .inl rfl

theorem Effect.key (h : Effect s i t) : t.key = s.key := by cases h <;> rfl

theorem Effect.params (h : Effect s i t) : t.params = s.params := by cases h <;> rfl

theorem Effect.outputs (h : Effect s i t) : t.report = s.report ∧ t.trace = s.trace := by
  cases h <;> exact ⟨rfl, rfl⟩

theorem Effect.stack (h : Effect s i t) : (t.stack = s.stack ∧ t.sp = s.sp) ∨ i = .ret ∨ ∃ nnn, i = .call nnn := by
  cases h with
  | called nnn _ hi => exact .inr (.inr ⟨nnn, hi⟩)
  | returned _ hi => exact .inr (.inl hi)
  | latched | stalled | jumped | wrote | stored | drew | timed => exact .inl ⟨rfl, rfl⟩

theorem Effect.display (h : Effect s i t) :
    (t.disp = s.disp ∧ t.redraw = s.redraw) ∨ (t.redraw = true ∧ (i = .cls ∨ ∃ x y n, i = .drw x y n)) := by
  cases h with
  | drew _ _ hi => exact .inr ⟨rfl, hi⟩
  | latched | stalled | jumped | called | returned | wrote | stored | timed => exact .inl ⟨rfl, rfl⟩

theorem Effect.mem (h : Effect s i t) :
    t.mem = s.mem ∨ ((∃ a bs, t.mem = s.mem.writeAll a bs) ∧ ∃ x, i = .ldB x ∨ i = .dump x) := by
  cases h with
  | stored a bs _ hi => exact .inr ⟨⟨a, bs, rfl⟩, hi⟩
  | latched | stalled | jumped | called | returned | wrote | drew | timed => exact .inl rfl

theorem Effect.flag (h : Effect s i t) : t.reg flagReg = s.reg flagReg ∨ MayWriteFlag i := by
  cases h with
  | wrote _ _ _ hv => exact hv.symm
  | drew _ _ _ hv => exact hv.symm
  | latched | stalled | jumped | called | returned | stored | timed => exact .inl rfl

theorem Effect.sound (h : Effect s i t) : t.st = s.st ∨ ∃ x, i = .ldStVx x := by
  cases h with
  | timed _ _ he => exact he
  | latched | stalled | jumped | called | returned | wrote | stored | drew => exact .inl rfl

theorem toNat_add_two {a : Word} (h : a.toNat ≤ 0x10FE) : (a + 2).toNat = a.toNat + 2 :=
  BitVec.toNat_add_of_lt (y := 2#16) (by rw [BitVec.toNat_ofNat]; omega)

theorem toNat_add_four {a : Word} (h : a.toNat ≤ 0x10FE) : (a + 4).toNat = a.toNat + 4 :=
  BitVec.toNat_add_of_lt (y := 4#16) (by rw [BitVec.toNat_ofNat]; omega)

/-- Below the fetch limit every effect keeps the pc and the active stack entries bounded. -/
theorem Effect.boundedControl (hpc : s.pc.toNat < s.params.fetchLimit.val) (hb : BoundedControl s)
    (h : Effect s i t) : BoundedControl t := by
  have hlimit := s.params.fetchLimit.isLt
  have next : ∀ a : Word, a.toNat < 4096 → (a + 2).toNat ≤ 0x10FE := fun a ha => by
    rw [toNat_add_two (by omega)]; omega
  have pcNext : (s.pc + 2).toNat ≤ 0x10FE := next s.pc (by omega)
  obtain ⟨hpc', hstack⟩ := hb
  cases h with
  | latched v => exact ⟨hpc', hstack⟩
  | stalled => exact ⟨hpc', hstack⟩
  | jumped a ha =>
    refine ⟨?_, hstack⟩
    rcases ha with rfl | rfl | ha
    · exact pcNext
    · rw [State.setPc_pc, toNat_add_four hpc']; omega
    · exact ha
  | called nnn h hi =>
    refine ⟨?_, fun k hk => ?_⟩
    · change (absolute nnn).toNat ≤ 0x10FE
      rw [absolute_toNat]; omega
    · have hk' : k.val < s.sp.val + 1 := hk
      change ((s.stack.set s.sp.val s.pc)[k.val]).toNat < _
      rw [Vector.getElem_set]
      split
      · exact hpc
      · exact hstack k (by omega)
  | returned h hi =>
    have hsp := s.sp.isLt
    have top := hstack ⟨s.sp.val - 1, by omega⟩ (by simp; omega)
    refine ⟨?_, fun k hk => hstack k ?_⟩
    · exact next (s.top h) (Nat.lt_trans top hlimit)
    · have : k.val < s.sp.val - 1 := hk
      omega
  | wrote => exact ⟨pcNext, hstack⟩
  | stored => exact ⟨pcNext, hstack⟩
  | drew => exact ⟨pcNext, hstack⟩
  | timed => exact ⟨pcNext, hstack⟩

/-! ### The step -/

theorem State.pc_lt_of_fetch {w : Word} (h : s.fetch = .ok w) : s.pc.toNat < s.params.fetchLimit.val := by
  by_contra hge
  rw [s.fetch_outside (Nat.le_of_not_lt hge)] at h
  cases h

/-- All a running step can do: latch a violation, or end an effect below the fetch limit. An unrecognized word has the
effect of a jump to the next instruction. -/
theorem step_effect (hs : s.fault = none) (h : step s = .next t) :
    ∃ w c u, t = finishStep s w c u ∧
      ((∃ v, u = { s with fault := some v }) ∨ (s.pc.toNat < s.params.fetchLimit.val ∧ ∃ i, Effect s i u)) := by
  rcases step_cases h with ⟨hf, -⟩ | ⟨-, v, -, rfl⟩ | ⟨-, w, r, hw, -, rfl⟩ | ⟨-, w, i, u, hw, -, he, rfl⟩
  · exact absurd hs hf
  · exact ⟨_, _, _, rfl, .inl ⟨v, rfl⟩⟩
  · exact ⟨_, _, _, rfl, .inr ⟨s.pc_lt_of_fetch hw, .jp 0, .jumped _ (.inl rfl)⟩⟩
  · exact ⟨_, _, _, rfl, .inr ⟨s.pc_lt_of_fetch hw, i, effect_of_exec he⟩⟩

theorem step_total (s : State) : ∃ t, step s = .next t := by
  by_cases hf : s.fault = none
  · rcases hw : s.fetch with v | w
    · exact ⟨_, step_of_fetch_error hf hw⟩
    · rcases hd : decodeWord w with r | i
      · exact ⟨_, step_of_unrecognized hf hw hd⟩
      · obtain ⟨u, hu⟩ := exec_total i s
        exact ⟨finishExecuted s w u, (step_of_decoded hf hw hd).trans (by rw [hu]; rfl)⟩
  · exact ⟨s, step_of_faulted s hf⟩

/-- What the effects, a latched violation and the end of a step keep, every step keeps. -/
theorem step_keeps {P : State → Prop} (hs : P s) (latch : ∀ v, P { s with fault := some v })
    (effect : s.pc.toNat < s.params.fetchLimit.val → ∀ i u, Effect s i u → P u)
    (finish : ∀ w c u, P u → P (finishStep s w c u)) (h : step s = .next t) : P t := by
  by_cases hf : s.fault = none
  · obtain ⟨w, c, u, rfl, ⟨v, rfl⟩ | ⟨hpc, i, he⟩⟩ := step_effect hf h
    · exact finish _ _ _ (latch v)
    · exact finish _ _ _ (effect hpc i u he)
  · rw [step_of_faulted s hf] at h
    exact Host.Outcome.next.inj h ▸ hs

theorem Effect.mem_wf (hm : s.mem.wf = true) (h : Effect s i t) : t.mem.wf = true := by
  rcases h.mem with e | ⟨⟨a, bs, e⟩, -⟩
  · rwa [e]
  · rw [e]
    exact Memory.wf_writeAll a bs hm

theorem step_mem_wf (hm : s.mem.wf = true) (h : step s = .next t) : t.mem.wf = true :=
  step_keeps (P := fun u => u.mem.wf = true) hm (fun _ => hm) (fun _ _ _ he => he.mem_wf hm)
    (fun w c u hu => by rwa [finishStep_mem]) h

theorem boundedControl_finishStep {w : Option Word} {c : Option Condition} {u : State} (h : BoundedControl u) :
    BoundedControl (finishStep s w c u) := by
  simpa only [BoundedControl, finishStep_pc, finishStep_sp, finishStep_stack, finishStep_params] using h

theorem step_boundedControl (hb : BoundedControl s) (h : step s = .next t) : BoundedControl t :=
  step_keeps hb (fun _ => hb) (fun hpc _ _ he => he.boundedControl hpc hb)
    (fun _ _ _ => boundedControl_finishStep) h

theorem step_key_params (h : step s = .next t) : t.key = s.key ∧ t.params = s.params :=
  step_keeps (P := fun u => u.key = s.key ∧ u.params = s.params) ⟨rfl, rfl⟩ (fun _ => ⟨rfl, rfl⟩)
    (fun _ _ _ he => ⟨he.key, he.params⟩) (fun w c u hu => by rwa [finishStep_key, finishStep_params]) h

theorem step_redraw (hr : s.redraw = true) (h : step s = .next t) : t.redraw = true := by
  refine step_keeps (P := fun u => u.redraw = true) hr (fun _ => hr) (fun _ i u he => ?_)
    (fun w c u hu => by rwa [finishStep_redraw]) h
  rcases he.display with ⟨-, e⟩ | ⟨e, -⟩
  · exact e.trans hr
  · exact e

/-! ### Host events -/

/-- What every host event but reset keeps. -/
structure HostKeeps (s t : State) : Prop where
  pc : t.pc = s.pc
  stack : t.stack = s.stack
  sp : t.sp = s.sp
  fault : t.fault = s.fault
  params : t.params = s.params
  mem : t.mem = s.mem ∨ ∃ a bs, t.mem = s.mem.writeAll a bs
  sound : t.st = s.st ∨ s.params.tickMode = .external

theorem loadEvent_keeps (s : State) (bytes : List Byte) : HostKeeps s (s.loadEvent bytes) := by
  unfold State.loadEvent
  split
  · exact ⟨rfl, rfl, rfl, rfl, rfl, .inl rfl, .inl rfl⟩
  · exact ⟨rfl, rfl, rfl, rfl, rfl, .inr ⟨entry, bytes, rfl⟩, .inl rfl⟩

theorem tickEvent_keeps (s : State) (hm : s.params.tickMode = .external) : HostKeeps s s.tickEvent := by
  unfold State.tickEvent
  split <;> exact ⟨rfl, rfl, rfl, rfl, rfl, .inl rfl, .inr hm⟩

theorem hostEvent_tick_perStep (hm : s.params.tickMode = .perStep) : hostEvent .tick s = none := by
  simp only [hostEvent, hm]

theorem hostEvent_tick_external (hm : s.params.tickMode = .external) : hostEvent .tick s = some s.tickEvent := by
  simp only [hostEvent, hm]

theorem hostEvent_keeps {e : HostEvent} (h : hostEvent e s = some t) (he : e ≠ .reset) : HostKeeps s t := by
  cases e with
  | reset => exact absurd rfl he
  | load bytes => cases h; exact loadEvent_keeps s bytes
  | loadUnavailable => cases h; exact ⟨rfl, rfl, rfl, rfl, rfl, .inl rfl, .inl rfl⟩
  | setKey k down => cases h; exact ⟨rfl, rfl, rfl, rfl, rfl, .inl rfl, .inl rfl⟩
  | tick =>
    rcases hm : s.params.tickMode with _ | _
    · rw [hostEvent_tick_perStep hm] at h
      cases h
    · rw [hostEvent_tick_external hm] at h
      cases h
      exact tickEvent_keeps s hm
  | clearRedraw => cases h; exact ⟨rfl, rfl, rfl, rfl, rfl, .inl rfl, .inl rfl⟩

theorem hostEvent_reset_eq (s : State) : hostEvent .reset s = some s.resetEvent := rfl

theorem hostEvent_mem_wf {e : HostEvent} (hm : s.mem.wf = true) (h : hostEvent e s = some t) : t.mem.wf = true := by
  by_cases he : e = .reset
  · subst he; cases h; exact State.reset_wf
  · rcases (hostEvent_keeps h he).mem with e | ⟨a, bs, e⟩
    · rwa [e]
    · rw [e]
      exact Memory.wf_writeAll a bs hm

/-- With the pc at the entry and an empty stack, whatever the policies. -/
theorem boundedControl_resetEvent (s : State) : BoundedControl s.resetEvent :=
  ⟨(by decide : (0x200 : Word).toNat ≤ 0x10FE), fun k hk => absurd hk (Nat.not_lt_zero k.val)⟩

theorem hostEvent_boundedControl {e : HostEvent} (hb : BoundedControl s) (h : hostEvent e s = some t) :
    BoundedControl t := by
  by_cases he : e = .reset
  · subst he; cases h; exact boundedControl_resetEvent s
  · have keep := hostEvent_keeps h he
    simpa only [BoundedControl, keep.pc, keep.stack, keep.sp, keep.params] using hb

/-! ### The sound timer under the default policies -/

/-- Under PER_STEP and FORCE_ZERO a running step ends with the sound timer at 0 (R246 b). -/
theorem step_silent (hm : s.params.tickMode = .perStep) (hp : s.params.soundPolicy = .forceZero) (hst : s.st = 0)
    (h : step s = .next t) : t.st = 0 := by
  by_cases hf : s.fault = none
  · obtain ⟨w, c, u, rfl, hu⟩ := step_effect hf h
    have silent : u.params = s.params ∧ (u.fault = none ∨ u.st = 0) := by
      rcases hu with ⟨v, rfl⟩ | ⟨-, i, he⟩
      · exact ⟨rfl, .inr hst⟩
      · refine ⟨he.params, ?_⟩
        rcases he.fault with e | ⟨v, rfl⟩
        · exact .inl (e.trans hf)
        · exact .inr hst
    obtain ⟨hparams, hcase⟩ := silent
    rw [finishStep_st]
    rcases hu0 : u.fault with _ | v
    · rw [u.tickAfterStep_perStep hu0 (hparams ▸ hm), State.tick_st, hparams, hp]
      rfl
    · rw [u.tickAfterStep_of_faulted (by simp [State.faulted, hu0])]
      exact hcase.resolve_left (by simp [hu0])
  · rw [step_of_faulted s hf] at h
    exact Host.Outcome.next.inj h ▸ hst

theorem step_of_move (h : move .step s = some t) : step s = .next t := by
  obtain ⟨u, hu⟩ := step_total s
  simp only [move, hu, Option.some.injEq] at h
  rw [hu, h]

theorem hostEvent_silent {e : HostEvent} (hm : s.params.tickMode = .perStep) (hst : s.st = 0)
    (h : hostEvent e s = some t) : t.params = s.params ∧ t.st = 0 := by
  by_cases he : e = .reset
  · subst he; cases h; exact ⟨rfl, rfl⟩
  · have keep := hostEvent_keeps h he
    have notExternal : s.params.tickMode ≠ .external := by rw [hm]; decide
    exact ⟨keep.params, (keep.sound.resolve_right notExternal).trans hst⟩

/-! ### A violation -/

/-- A step that leaves the latch set changed nothing but the latch and the two outputs (R90). -/
theorem step_violation (hs : s.fault = none) (h : step s = .next t) (ht : t.fault ≠ none) :
    ∃ v, t = { s with fault := some v, report := some (.violation v), trace := t.trace } := by
  have ended : ∀ (w : Option Word) (v : Violation),
      finishStep s w (some (.violation v)) { s with fault := some v } =
        { s with fault := some v, report := some (.violation v), trace := some (s.record w) } := fun w v => by
    rw [finishStep, State.tickAfterStep_of_faulted _ rfl]
  rcases step_cases h with ⟨hf, -⟩ | ⟨-, v, -, rfl⟩ | ⟨-, w, r, -, -, rfl⟩ | ⟨-, w, i, u, -, -, he, rfl⟩
  · exact absurd hs hf
  · exact ⟨v, ended none v⟩
  · exact absurd ((finishStep_fault s s.advance _ _).trans hs) ht
  · rcases (effect_of_exec he).fault with e | ⟨v, rfl⟩
    · exact absurd ((finishStep_fault s u _ _).trans (e.trans hs)) ht
    · exact ⟨v, ended (some w) v⟩

/-- A faulted state runs to itself. -/
theorem run_of_faulted (h : s.fault ≠ none) (n : Nat) : Host.Core.run core n s = .next s := by
  induction n with
  | zero => rfl
  | succ n ih =>
    have hstep : core.step s = .next s := step_of_faulted s h
    simp only [Host.Core.run]
    rw [hstep]
    exact ih

theorem not_finalAfter_of_faulted (h : s.fault ≠ none) (n : Nat) (u : State) : ¬ Safety.FinalAfter n s u := by
  rintro ⟨hrun, hsafe⟩
  rw [run_of_faulted h] at hrun
  obtain rfl : s = u := Host.Outcome.next.inj hrun
  exact h hsafe

/-! ### Steps that complete -/

/-- The step of a decoded instruction. -/
theorem step_of_exec {w : Word} {u : State} (hs : s.fault = none) (hf : s.fetch = .ok w) (hd : decodeWord w = .ok i)
    (he : exec i s = .next u) : step s = .next (finishExecuted s w u) := by
  rw [step_of_decoded hs hf hd, he]
  rfl

/-- The end of a step writes the timers and the two outputs alone. -/
theorem finishStep_eq (s : State) (w : Option Word) (c : Option Condition) (u : State) :
    finishStep s w c u =
      { u with
        dt := (finishStep s w c u).dt, st := (finishStep s w c u).st, report := c, trace := some (s.record w) } := by
  rcases u.tickAfterStep_cases with h | ⟨-, h⟩
  · simp only [finishStep, h]
  · simp only [finishStep, h]
    rfl

theorem finishStep_timers_perStep (w : Option Word) (c : Option Condition) {u : State} (hu : u.fault = none)
    (hm : u.params.tickMode = .perStep) :
    (finishStep s w c u).dt = u.tick.dt ∧ (finishStep s w c u).st = u.tick.st := by
  rw [finishStep_dt, finishStep_st, u.tickAfterStep_perStep hu hm]
  exact ⟨rfl, rfl⟩

theorem finishStep_timers_external (w : Option Word) (c : Option Condition) {u : State}
    (hm : u.params.tickMode = .external) : (finishStep s w c u).dt = u.dt ∧ (finishStep s w c u).st = u.st := by
  rw [finishStep_dt, finishStep_st, u.tickAfterStep_external hm]
  exact ⟨rfl, rfl⟩

theorem decodeWord_of_not_admitted {w : Word} (h : ∀ r ∈ opcodeMap, r.admits w = false) :
    ∃ r, decodeWord w = .error r := by
  rcases hd : decodeWord w with r | i
  · exact ⟨r, rfl⟩
  · obtain ⟨r, hr, -, ha⟩ := row_of_decodeWord hd
    exact absurd ha (by simp [h r hr])

/-- A word of two bytes counts the high one 256 times (R42). -/
theorem wordOfBytes_toNat (hi lo : Byte) : (wordOfBytes hi lo).toNat = hi.toNat * 256 + lo.toNat := by
  rw [wordOfBytes, BitVec.toNat_append, ← Nat.shiftLeft_add_eq_or_of_lt lo.isLt, Nat.shiftLeft_eq]

/-- The next instruction's word, from the bytes at the pc. -/
theorem fetch_of_decodeBytes {rest : List Byte} (hpc : s.pc.toNat < s.params.fetchLimit.val)
    (h : decodeBytes (s.readByte s.pc.toNat :: s.readByte (s.pc.toNat + 1) :: rest) = .ok (i, rest)) :
    s.fetch = .ok (encode i) ∧ decodeWord (encode i) = .ok i := by
  rw [s.fetch_inside hpc]
  simp only [decodeBytes] at h
  rcases hd : decodeWord (wordOfBytes (s.readByte s.pc.toNat) (s.readByte (s.pc.toNat + 1))) with r | j
  · rw [hd] at h; cases h
  · rw [hd] at h
    cases h
    have hw := (encode_of_decodeWord hd).2
    exact ⟨congrArg _ hw.symm, hw ▸ hd⟩

/-! ### The outputs and the sound timer are not read -/

/-- `s` with other values in the elements that no instruction but the move to `ST` touches. -/
def State.withUnread (s : State) (b : Byte) (r : Option Condition) (tr : Option TraceRecord) : State :=
  { s with st := b, report := r, trace := tr }

/-- Two answers that differ at most in the elements that are not read. -/
def Alike (b : Byte) (r : Option Condition) (tr : Option TraceRecord) (a a' : Result) : Prop :=
  ∃ t, a = .next t ∧ a' = .next (t.withUnread b r tr)

variable {b : Byte} {r : Option Condition} {tr : Option TraceRecord}

theorem Alike.whenInBounds {last : Nat} {j : Instr} {a a' : Result} (h : Alike b r tr a a') :
    Alike b r tr (whenInBounds last j s a) (whenInBounds last j (s.withUnread b r tr) a') := by
  unfold Machine.whenInBounds
  split
  · exact ⟨_, rfl, rfl⟩
  · exact h

theorem Alike.skipOnKey (down : Bool) (x : Reg) (j : Instr) :
    Alike b r tr (skipOnKey down x j s) (skipOnKey down x j (s.withUnread b r tr)) := by
  by_cases h : (s.reg x).toNat < 16
  · rw [skipOnKey_named s down x j h, skipOnKey_named (s.withUnread b r tr) down x j h]
    exact ⟨_, rfl, rfl⟩
  · rw [skipOnKey_unnamed s down x j h, skipOnKey_unnamed (s.withUnread b r tr) down x j h]
    exact ⟨_, rfl, rfl⟩

theorem alike_execLdVxK (x : Reg) : Alike b r tr (execLdVxK x s) (execLdVxK x (s.withUnread b r tr)) := by
  unfold execLdVxK
  rw [show (s.withUnread b r tr).downKeys = s.downKeys from rfl]
  split <;> exact ⟨_, rfl, rfl⟩

/-- No instruction but the move to `ST` reads or writes the sound timer or an output. -/
theorem exec_alike (i : Instr) (hi : ∀ x, i ≠ .ldStVx x) : Alike b r tr (exec i s) (exec i (s.withUnread b r tr)) := by
  cases i with
  | ret =>
    by_cases h : s.sp.val = 0
    · rw [exec_ret_empty s h, exec_ret_empty (s.withUnread b r tr) h]
      exact ⟨_, rfl, rfl⟩
    · rw [exec_ret_active s h, exec_ret_active (s.withUnread b r tr) h]
      exact ⟨_, rfl, rfl⟩
  | call nnn =>
    by_cases h : s.sp.val < 16
    · rw [exec_call_room s nnn h, exec_call_room (s.withUnread b r tr) nnn h]
      exact ⟨_, rfl, rfl⟩
    · have full : s.sp.val = 16 := by omega
      rw [exec_call_full s nnn full, exec_call_full (s.withUnread b r tr) nnn full]
      exact ⟨_, rfl, rfl⟩
  | drw x y n =>
    cases n with
    | zero => exact ⟨_, rfl, rfl⟩
    | succ k => exact .whenInBounds ⟨_, rfl, rfl⟩
  | skp x => exact .skipOnKey ..
  | sknp x => exact .skipOnKey ..
  | ldVxK x => exact alike_execLdVxK x
  | ldStVx x => exact absurd rfl (hi x)
  | ldB x => exact .whenInBounds ⟨_, rfl, rfl⟩
  | dump x => exact .whenInBounds ⟨_, rfl, rfl⟩
  | load x => exact .whenInBounds ⟨_, rfl, rfl⟩
  | _ => exact ⟨_, rfl, rfl⟩

/-- What an instruction does does not depend on the outputs, and it does not touch them. -/
theorem exec_withOutputs (i : Instr) (s : State) (r : Option Condition) (tr : Option TraceRecord) :
    ∃ t, exec i s = .next t ∧
      exec i { s with report := r, trace := tr } = .next { t with report := r, trace := tr } := by
  by_cases hi : ∃ x, i = .ldStVx x
  · obtain ⟨x, rfl⟩ := hi
    exact ⟨_, rfl, rfl⟩
  · have hi' : ∀ x, i ≠ .ldStVx x := fun x e => hi ⟨x, e⟩
    obtain ⟨t, ht, ht'⟩ := exec_alike (s := s) (b := s.st) (r := r) (tr := tr) i hi'
    have hst : t.st = s.st := (effect_of_exec ht).sound.resolve_right hi
    refine ⟨t, ht, ht'.trans ?_⟩
    rw [State.withUnread, ← hst]

end
end Sys2Proof.Machine
end

/-! The statements about every step and every move (spec/10_state.md, spec/40_step_cycle.md). -/

section
namespace Sys2Proof.Machine

open Sys2Proof.Claims

/-! ### Invariants -/

/-- Settles O17: only stores and loads write memory, and every write keeps the canonical form. -/
theorem memoryStaysCanonical : Obligations.MemoryStaysCanonical :=
  ⟨fun _ _ => step_mem_wf, fun _ _ _ => hostEvent_mem_wf⟩

/-- Settles O18: an instruction runs below the fetch limit, so what it adds to the pc or pushes stays in bounds. -/
theorem pcAndStackStayBounded : Obligations.PcAndStackStayBounded :=
  ⟨fun _ _ => step_boundedControl, fun _ _ _ => hostEvent_boundedControl, fun _ hb => toNat_add_four hb.1⟩

/-- Settles O19: the core's step ends with a tick that forces the timer to 0; of the host's events only the external
tick touches it, and under PER_STEP that is no move. -/
theorem soundTimerStaysSilentByDefault : Obligations.SoundTimerStaysSilentByDefault := by
  intro m s t hm hp hst h
  have keeps : t.params = s.params ∧ t.st = 0 := by
    cases m with
    | step =>
      have hstep := step_of_move h
      exact ⟨(step_key_params hstep).2, step_silent hm hp hst hstep⟩
    | host e => exact hostEvent_silent hm hst h
  obtain ⟨hparams, hsilent⟩ := keeps
  exact ⟨hparams ▸ hm, hparams ▸ hp, hsilent⟩

/-- Settles O20: nothing is listed in memory, the pc is the entry and the stack is empty. -/
theorem invariantsHoldAtReset : Obligations.InvariantsHoldAtReset :=
  ⟨State.reset_wf, boundedControl_resetEvent State.reset, rfl, rfl, rfl⟩

/-- Settles O21: no effect of an instruction touches the keys or the policies. -/
theorem keysAndPoliciesAreReadOnlyToTheCore : Obligations.KeysAndPoliciesAreReadOnlyToTheCore :=
  fun _ _ => step_key_params

/-- Settles O22: of the effects, only those of call and return change the stack. -/
theorem onlyCallAndReturnTouchTheStack : Obligations.OnlyCallAndReturnTouchTheStack := by
  intro i s t h hne
  refine (effect_of_exec h).stack.resolve_left fun hkept => ?_
  exact hne.elim (· hkept.1) (· hkept.2)

/-- Settles O23: of the effects, only that of clear and draw changes the display, and it sets the redraw flag. -/
theorem onlyDisplayOperationsTouchTheDisplay : Obligations.OnlyDisplayOperationsTouchTheDisplay := by
  refine ⟨fun i s t h hne => ?_, fun _ _ h hr => step_redraw hr h⟩
  rcases (effect_of_exec h).display with hkept | ⟨-, hi⟩
  · exact (hne.elim (· hkept.1) (· hkept.2)).elim
  · exact hi

/-- Settles O24: of the effects, only that of the two stores changes memory. -/
theorem onlyStoreDigitsAndDumpWriteMemory : Obligations.OnlyStoreDigitsAndDumpWriteMemory :=
  fun _ _ _ h hne => ((effect_of_exec h).mem.resolve_left hne).2

/-- Settles O25: of the effects, two write registers, and both carry the condition on the flag register. -/
theorem onlyFlagWritersTouchTheFlag : Obligations.OnlyFlagWritersTouchTheFlag :=
  fun _ _ _ h hne => (effect_of_exec h).flag.resolve_left hne

/-- Settles O26: the sound timer is one of the elements no instruction but its own move reads or writes. -/
theorem soundTimerIsNeverRead : Obligations.SoundTimerIsNeverRead := by
  intro i s b hi
  obtain ⟨t, ht, ht'⟩ := exec_alike (s := s) (b := b) (r := s.report) (tr := s.trace) i hi
  obtain ⟨hreport, htrace⟩ := (effect_of_exec ht).outputs
  refine ⟨t, ht, ht'.trans ?_⟩
  rw [State.withUnread, ← hreport, ← htrace]

/-! ### The step cycle -/

/-- Settles O7: the bytes at the pc are the fetched word, and it is the instruction's own. -/
theorem stepRunsTheDecodedInstruction : Obligations.StepRunsTheDecodedInstruction := by
  intro s i hs hpc hdec _
  obtain ⟨hfetch, hdecode⟩ := fetch_of_decodeBytes hpc hdec
  refine ⟨fun u hu => step_of_exec hs hfetch hdecode hu, fun f hf => ?_, fun r hr => ?_⟩
  · rw [step_of_decoded hs hfetch hdecode, hf]
    rfl
  · rw [step_of_decoded hs hfetch hdecode, hr]
    rfl

/-- Settles O8: every instruction answers one of its effects. -/
theorem everyStepAnswersANextState : Obligations.EveryStepAnswersANextState := ⟨exec_total, step_total⟩

/-- Settles O9: in bounds the two bytes form the word; out of bounds the step ends with the latch set, so it ticks
no timer. -/
theorem fetchReadsBigEndianOrLatches : Obligations.FetchReadsBigEndianOrLatches := by
  refine ⟨rfl, fun s hpc => ⟨_, s.fetch_inside hpc, wordOfBytes_toNat _ _⟩, fun s hs hpc => ?_⟩
  rw [step_of_fetch_error hs (s.fetch_outside hpc)]
  rfl

/-- Settles O10: the word decodes to nothing, since a word that decodes is admitted by its instruction's row. -/
theorem unrecognizedWordIsAReportedNoOp : Obligations.UnrecognizedWordIsAReportedNoOp := by
  intro s w hs hf hrows
  obtain ⟨r, hd⟩ := decodeWord_of_not_admitted hrows
  refine ⟨_, step_of_unrecognized hs hf hd, rfl, finishStep_eq .., fun hm => ?_, fun hm => ?_⟩
  · exact finishStep_timers_perStep _ _ (u := s.advance) hs hm
  · exact finishStep_timers_external _ _ (u := s.advance) hm

/-- Settles O11: by the two policies. -/
theorem tickLowersTheTimers : Obligations.TickLowersTheTimers := by
  refine fun s => ⟨lowered_toNat s.dt, fun hp => ?_, fun hp => ?_, rfl, by simp [Frame]⟩
  · rw [State.tick_st, hp]
    rfl
  · rw [State.tick_st, hp]
    exact lowered_toNat s.st

/-- Settles O12: an instruction keeps the tick mode, so the step ends as the mode of its start says. -/
theorem stepTicksOnceAfterTheOperation : Obligations.StepTicksOnceAfterTheOperation := by
  intro s w i u hs hf hd he hu
  have hparams : u.params = s.params := (effect_of_exec he).params
  have hquiet : u.fault.map Condition.violation = none := by rw [hu]; rfl
  refine ⟨_, step_of_exec hs hf hd he, fun hm => ?_, fun hm => ?_, ?_⟩
  · exact finishStep_timers_perStep _ _ hu (hparams ▸ hm)
  · exact finishStep_timers_external _ _ (hparams ▸ hm)
  · rw [finishExecuted, hquiet]
    exact finishStep_eq ..

/-- The step gives out the record of its start, whatever it does. -/
theorem step_trace {s t : State} (hs : s.fault = none) (h : step s = .next t) :
    t.trace = some (s.record s.fetch.toOption) := by
  rcases step_cases h with ⟨hf, -⟩ | ⟨-, v, hw, rfl⟩ | ⟨-, w, r, hw, -, rfl⟩ | ⟨-, w, i, u, hw, -, -, rfl⟩
  · exact absurd hs hf
  all_goals rw [hw]; rfl

/-- The end of a step gives out both outputs anew. -/
theorem finishStep_withOutputs (s u : State) (w : Option Word) (c r : Option Condition) (tr : Option TraceRecord) :
    finishStep s w c { u with report := r, trace := tr } = finishStep s w c u := by
  unfold finishStep State.tickAfterStep
  by_cases hf : u.faulted = true
  · rw [if_pos hf, if_pos (show ({ u with report := r, trace := tr } : State).faulted = true from hf)]
  · rw [if_neg hf, if_neg (show ¬ ({ u with report := r, trace := tr } : State).faulted = true from hf)]
    cases u.params.tickMode <;> rfl

/-- The outputs of the state a step starts in do not matter. -/
theorem step_withOutputs {s : State} (hs : s.fault = none) (r : Option Condition) (tr : Option TraceRecord) :
    step { s with report := r, trace := tr } = step s := by
  have hs' : ({ s with report := r, trace := tr } : State).fault = none := hs
  rcases hw : s.fetch with v | w
  · rw [step_of_fetch_error hs' hw, step_of_fetch_error hs hw]
    exact congrArg _ (finishStep_withOutputs s { s with fault := some v } none _ r tr)
  · rcases hd : decodeWord w with e | i
    · rw [step_of_unrecognized hs' hw hd, step_of_unrecognized hs hw hd]
      exact congrArg _ (finishStep_withOutputs s s.advance (some w) _ r tr)
    · obtain ⟨t, ht, ht'⟩ := exec_withOutputs i s r tr
      rw [step_of_exec hs' hw hd ht', step_of_exec hs hw hd ht]
      exact congrArg _ (finishStep_withOutputs s t (some w) _ r tr)

/-- Settles O13: the record is taken of the start, and no instruction reads an output. -/
theorem traceIsSampledAtTheStartAndAffectsNothing : Obligations.TraceIsSampledAtTheStartAndAffectsNothing := by
  refine ⟨fun s hs => ?_, fun s r tr hs => step_withOutputs hs r tr⟩
  obtain ⟨t, ht⟩ := step_total s
  refine ⟨t, _, ht, step_trace hs ht, rfl, rfl, rfl, fun w hw => ?_, fun v hv => ?_⟩
  · rw [hw]; rfl
  · rw [hv]; rfl

/-- Settles O14: the latch is all the step set, and a faulted state runs to itself. -/
theorem violationChangesOnlyTheLatch : Obligations.ViolationChangesOnlyTheLatch := fun _ _ hs h ht =>
  ⟨step_violation hs h ht, step_of_faulted _ ht, not_finalAfter_of_faulted ht⟩

/-- Settles O15: of the host's events only reset touches the latch. -/
theorem latchedFaultFreezesUntilReset : Obligations.LatchedFaultFreezesUntilReset := fun s hs =>
  ⟨step_of_faulted s hs, fun _ _ h he => (hostEvent_keeps h he).fault, s.resetEvent, rfl, rfl⟩

/-- Settles O16: the highest address of each of the four accesses is the one its instruction checks. -/
theorem dataAccessAboveMemoryIsAViolation : Obligations.DataAccessAboveMemoryIsAViolation := by
  refine fun s x y n => ⟨fun h => ?_, fun h => ⟨?_, ?_⟩, fun hn h => ?_⟩
  · rw [exec_ldB]
    exact whenInBounds_outside s h
  · rw [exec_dump]
    exact whenInBounds_outside s h
  · rw [exec_load]
    exact whenInBounds_outside s h
  · rw [Nat.add_sub_assoc (Nat.pos_of_ne_zero hn)] at h ⊢
    exact exec_drw_outside s x y hn h

end Sys2Proof.Machine
end

/-! Control transfer and the register-to-register operations (spec/41_control_flow.md, spec/42_alu.md). -/

section
namespace Sys2Proof.Machine

open Sys2Proof.Claims

section
variable (s : State)

/-! ### Frames of the shared operations -/

theorem frame_called (h : s.sp.val < 16) (a : Word) : Frame { stack := true } s (s.called h a) := by
  simp [Frame, State.called, State.reg, State.readByte]

theorem frame_returned (h : s.sp.val ≠ 0) : Frame { stack := true } s (s.returned h) := by
  simp [Frame, State.returned, State.reg, State.readByte]

/-- A call's own address fills the slot at the old depth, every other slot keeps its value (R101, D28). -/
theorem called_slot (h : s.sp.val < 16) (a : Word) (k : Fin 16) :
    (s.called h a).stack[k.val] = if k.val = s.sp.val then s.pc else s.stack[k.val] := by
  simp only [State.called, Vector.getElem_set, eq_comm]

/-- Flag first, result second: the result remains in the destination, the flag in its register when that is another
(R126 to R130). -/
theorem flagThenResult_writes_and_frames (x : Reg) (f : Bool) (r : Byte) :
    ∃ t, flagThenResult x f r s = .next t ∧ t.reg x = r ∧ (x ≠ flagReg → t.reg flagReg = flagByte f) ∧
      t.pc = s.pc + 2 ∧ Frame { regs := fun r => r = x ∨ r = flagReg } s t := by
  refine ⟨_, flagThenResult_eq s x f r, by simp, fun hx => by simp [hx.symm], by simp, fun r hr => ?_, by simp⟩
  rw [not_or] at hr
  simp [hr.1, hr.2]

/-- Result first, zero second: the flag register is 0, another destination holds the result (R123 to R125). -/
theorem resultThenZeroFlag_writes_and_frames (x : Reg) (r : Byte) :
    ∃ t, resultThenZeroFlag x r s = .next t ∧ (x ≠ flagReg → t.reg x = r) ∧ t.reg flagReg = 0 ∧
      t.pc = s.pc + 2 ∧ Frame { regs := fun r => r = x ∨ r = flagReg } s t := by
  refine ⟨_, resultThenZeroFlag_eq s x r, fun hx => by simp [hx], by simp [flagByte], by simp, fun r hr => ?_, by simp⟩
  rw [not_or] at hr
  simp [hr.1, hr.2]

end

/-! ### The flag bits as numbers -/

theorem flagByte_toNat (f : Bool) : (flagByte f).toNat = if f = true then 1 else 0 := by
  cases f <;> rfl

theorem flagByte_carryOut_toNat (a b : Byte) :
    (flagByte (carryOut a b)).toNat = if a.toNat + b.toNat > 255 then 1 else 0 := by
  simp only [flagByte_toNat, carryOut, decide_eq_true_eq]

theorem flagByte_noBorrow_toNat (a b : Byte) :
    (flagByte (noBorrow a b)).toNat = if a.toNat < b.toNat then 0 else 1 := by
  by_cases h : a.toNat < b.toNat <;> simp [flagByte_toNat, noBorrow, h]

/-- The flag that holds a bit of a byte. -/
theorem flagByte_getLsbD_toNat (b : Byte) (k : Nat) : (flagByte (b.getLsbD k)).toNat = b.toNat / 2 ^ k % 2 := by
  rw [BitVec.getLsbD, Nat.testBit_eq_decide_div_mod_eq]
  rcases Nat.mod_two_eq_zero_or_one (b.toNat / 2 ^ k) with e | e <;> rw [e] <;> rfl

theorem flagByte_lowBit_toNat (b : Byte) : (flagByte (lowBit b)).toNat = b.toNat % 2 := by
  rw [lowBit, flagByte_getLsbD_toNat, pow_zero, Nat.div_one]

theorem flagByte_highBit_toNat (b : Byte) : (flagByte (highBit b)).toNat = b.toNat / 128 := by
  rw [highBit, flagByte_getLsbD_toNat]
  omega

theorem sub_toNat (a b : Byte) : (a - b).toNat = (a.toNat + 256 - b.toNat) % 256 := by
  rw [BitVec.toNat_sub]
  have := b.isLt
  congr 1
  omega

/-! ### Control transfer -/

/-- Settles O28: the exact sum fits in 16 bits. -/
theorem jumpPlusRegister0AddsV0 : Obligations.JumpPlusRegister0AddsV0 := fun nnn s =>
  ⟨_, exec_jpV0 s nnn, absolutePlusV0_toNat s nnn, frame_setPc s {} _⟩

/-- Settles O29: by the depth, below 16 or 16. -/
theorem callPushesItsOwnAddress : Obligations.CallPushesItsOwnAddress := fun nnn s =>
  ⟨fun h => ⟨_, exec_call_room s nnn h, called_slot s h _, rfl, absolute_toNat nnn, frame_called s h _⟩,
    exec_call_full s nnn⟩

/-- Settles O30: at depth `k + 1` the entry on top is slot `k`. -/
theorem returnPopsAndAdvances : Obligations.ReturnPopsAndAdvances := by
  refine fun s => ⟨fun k hk => ?_, exec_ret_empty s⟩
  have h : s.sp.val ≠ 0 := by omega
  have slot : s.sp.val - 1 = k.val := by omega
  have top : s.top h = s.stack[k.val] := getElem_congr_idx slot
  exact ⟨_, exec_ret_active s h, congrArg (· + 2) top, slot, rfl, frame_returned s h⟩

/-- Settles O31: the slot the call filled is the one the return pops. -/
theorem returnAfterCallResumesBehindTheCall : Obligations.ReturnAfterCallResumesBehindTheCall := by
  intro nnn s h
  refine ⟨_, exec_call_room s nnn h, fun u hstack hsp => ?_⟩
  have depth : u.sp.val = s.sp.val + 1 := congrArg Fin.val hsp
  have hu : u.sp.val ≠ 0 := by omega
  have slot : u.sp.val - 1 = s.sp.val := by omega
  have top : u.top hu = s.pc := by
    have filled := called_slot s h (absolute nnn) ⟨s.sp.val, h⟩
    rw [if_pos rfl, ← hstack] at filled
    exact (getElem_congr_idx slot).trans filled
  exact ⟨_, exec_ret_active u hu, congrArg (· + 2) top, Fin.ext slot⟩

/-- Settles O33: each of the two is a skip, whose test decides the equality of the registers or its negation. -/
theorem registerSkipsCompareAndSkip : Obligations.RegisterSkipsCompareAndSkip := by
  refine fun x y n s => ⟨?_, ?_⟩
  · rw [exec_seReg]
    exact skipIf_advances_and_frames s beq_iff_eq
  · rw [exec_sneReg]
    exact skipIf_advances_and_frames s bne_iff_ne

/-! ### Register-to-register operations -/

/-- A bitwise operation whose result has the bits `op` makes of the operands' bits. -/
theorem bitwise_writes_and_frames {x y : Reg} {s : State} {i : Instr} {r : Byte} (op : Bool → Bool → Bool)
    (hi : exec i s = resultThenZeroFlag x r s)
    (hr : ∀ k, r.getLsbD k = op ((s.reg x).getLsbD k) ((s.reg y).getLsbD k)) :
    ∃ t, exec i s = .next t ∧
      (x ≠ flagReg → ∀ k, (t.reg x).getLsbD k = op ((s.reg x).getLsbD k) ((s.reg y).getLsbD k)) ∧
      t.reg flagReg = 0 ∧ t.pc = s.pc + 2 ∧ Frame { regs := fun r => r = x ∨ r = flagReg } s t := by
  obtain ⟨t, ht, hx, hzero, hpc, hframe⟩ := resultThenZeroFlag_writes_and_frames s x r
  exact ⟨t, hi.trans ht, fun hne k => hx hne ▸ hr k, hzero, hpc, hframe⟩

/-- Settles O36: the three are one shape, with the operation on one bit as its parameter. -/
theorem bitwiseOperationsZeroTheFlag : Obligations.BitwiseOperationsZeroTheFlag := fun x y s =>
  ⟨bitwise_writes_and_frames (· || ·) (exec_orReg s x y) fun _ => BitVec.getLsbD_or,
    bitwise_writes_and_frames (· && ·) (exec_andReg s x y) fun _ => BitVec.getLsbD_and,
    bitwise_writes_and_frames (· ^^ ·) (exec_xorReg s x y) fun _ => BitVec.getLsbD_xor⟩

/-- An operation that writes the flag and then its result, both known as numbers. -/
theorem arithmetic_writes_and_frames {x : Reg} {s : State} {i : Instr} {f : Bool} {r : Byte} {m n : Nat}
    (hi : exec i s = flagThenResult x f r s) (hr : r.toNat = m) (hf : (flagByte f).toNat = n) :
    ∃ t, exec i s = .next t ∧ (t.reg x).toNat = m ∧ (x ≠ flagReg → (t.reg flagReg).toNat = n) ∧
      t.pc = s.pc + 2 ∧ Frame { regs := fun r => r = x ∨ r = flagReg } s t := by
  obtain ⟨t, ht, hx, hflag, hpc, hframe⟩ := flagThenResult_writes_and_frames s x f r
  exact ⟨t, hi.trans ht, hx ▸ hr, fun hne => hflag hne ▸ hf, hpc, hframe⟩

/-- Settles O37: the sum and its carry as numbers. -/
theorem addRegistersSetsCarry : Obligations.AddRegistersSetsCarry := fun x y s =>
  arithmetic_writes_and_frames (exec_addReg s x y) (BitVec.toNat_add _ _) (flagByte_carryOut_toNat _ _)

/-- Settles O38: the difference and its borrow as numbers, with the operands either way round. -/
theorem subtractionsSetNoBorrow : Obligations.SubtractionsSetNoBorrow := fun x y s =>
  ⟨arithmetic_writes_and_frames (exec_subReg s x y) (sub_toNat _ _) (flagByte_noBorrow_toNat _ _),
    arithmetic_writes_and_frames (exec_subn s x y) (sub_toNat _ _) (flagByte_noBorrow_toNat _ _)⟩

/-- Settles O39: the shifted byte and the bit shifted out as numbers. -/
theorem shiftsMoveOneBitIntoTheFlag : Obligations.ShiftsMoveOneBitIntoTheFlag := by
  refine fun x y s => ⟨arithmetic_writes_and_frames (exec_shr s x y) ?_ (flagByte_lowBit_toNat _),
    arithmetic_writes_and_frames (exec_shl s x y) ?_ (flagByte_highBit_toNat _)⟩
  · rw [BitVec.toNat_ushiftRight, Nat.shiftRight_eq_div_pow]
  · rw [BitVec.toNat_shiftLeft, Nat.shiftLeft_eq]

end Sys2Proof.Machine
end

/-! The index register and memory (spec/43_index_memory.md). -/

section
namespace Sys2Proof.Machine

open Sys2Proof.Claims

/-! ### Addresses and values -/

/-- In bounds `I` past the range is the exact sum (R145, R146). -/
theorem State.indexPast_toNat {s : State} {x : Reg} (h : s.indexed x.val ≤ 4095) :
    (s.indexPast x).toNat = s.i.toNat + x.val + 1 := by
  have hsum : s.i.toNat + x.val ≤ 4095 := h
  rw [State.indexPast, BitVec.toNat_ofNat]
  omega

/-- A glyph address does not wrap (R143, D25). -/
theorem glyphAddress_toNat (b : Byte) : (glyphAddress b).toNat = b.toNat * 5 := by
  rw [glyphAddress, glyphSize, BitVec.toNat_ofNat]
  omega

/-- The bytes a dump stores: the registers in rising order (R145). -/
theorem State.regsTo_length (s : State) (x : Reg) : (s.regsTo x).length = x.val + 1 := by
  simp only [State.regsTo, List.length_take, Vector.length_toList]
  omega

theorem State.regsTo_getElem (s : State) (x : Reg) (k : Nat) (h : k < (s.regsTo x).length) :
    (s.regsTo x)[k] = s.reg (Fin.ofNat 16 k) := by
  have hk : k < 16 := by rw [State.regsTo_length] at h; omega
  simp [State.regsTo, State.reg, Nat.mod_eq_of_lt hk]

/-- The three digits of a byte, each its own decimal place (R144). -/
theorem digits_getElem (b : Byte) (k : Nat) (h : k < (digits b).length) :
    (digits b)[k] = BitVec.ofNat 8 (b.toNat / 10 ^ (2 - k) % 10) := by
  have hb : b.toNat / 100 % 10 = b.toNat / 100 := by omega
  match k, h with
  | 0, _ => exact (congrArg (BitVec.ofNat 8) hb).symm
  | 1, _ => rfl
  | 2, _ => simp [digits]

theorem digit_toNat (n : Nat) : (BitVec.ofNat 8 (n % 10)).toNat = n % 10 := by
  rw [BitVec.toNat_ofNat]
  omega

/-! ### Frames -/

theorem frame_setI_advance (s : State) (a : Word) : Frame { index := true } s (s.setI a).advance := by
  simp [Frame]

/-- A store stays within the frame that names its addresses. -/
theorem frame_writeBytes_advance (s : State) (a : Nat) (bs : List Byte) (c : Touch)
    (hc : ∀ k, a ≤ k → k < a + bs.length → c.mem k) : Frame c s (s.writeBytes a bs).advance := by
  have others : ∀ k, ¬ c.mem k → (s.writeBytes a bs).advance.readByte k = s.readByte k := fun k hk =>
    s.readByte_writeBytes_outside bs (by_contra fun h => hk (hc k (by omega) (by omega)))
  exact ⟨fun _ _ => rfl, others, by simp⟩

theorem frame_setI {c : Touch} {s t : State} (h : Frame c s t) (hc : c.index = true) (a : Word) :
    Frame c s (t.setI a) := by
  obtain ⟨hregs, hmem, -, hrest⟩ := h
  exact ⟨hregs, hmem, fun e => by simp [hc] at e, hrest⟩

theorem frame_loadRegs_advance (s : State) (x : Reg) (a : Word) :
    Frame { regs := fun r => r ≤ x, index := true } s ((s.loadRegs x).setI a).advance := by
  refine ⟨fun r hr => ?_, by simp⟩
  simp [show ¬ r ≤ x from hr]

/-! ### Index register -/

/-- Settles O40: neither value is reduced. -/
theorem indexLoadsSetI : Obligations.IndexLoadsSetI := fun nnn x s =>
  ⟨⟨_, exec_ldI s nnn, absolute_toNat nnn, rfl, frame_setI_advance s _⟩,
    ⟨_, exec_ldF s x, glyphAddress_toNat _, rfl, frame_setI_advance s _⟩⟩

/-- Settles O41: the flag compares the exact sum, `I` takes it modulo `2 ^ 16`. -/
theorem addToIndexWritesTheFlag : Obligations.AddToIndexWritesTheFlag := by
  intro x s
  have hflag : (flagByte (indexOverflow s.i (s.reg x))).toNat =
      if s.i.toNat + (s.reg x).toNat > 0xFFF then 1 else 0 := by
    simp only [flagByte_toNat, indexOverflow, decide_eq_true_eq]
  have hsum : (s.i + (s.reg x).setWidth 16).toNat = (s.i.toNat + (s.reg x).toNat) % 65536 := by
    rw [BitVec.toNat_add, BitVec.toNat_setWidth_of_le (by decide)]
  refine ⟨_, exec_addI s x, hsum, ?_, rfl, fun r hr => ?_, by simp⟩
  · simpa using hflag
  · simp [show r ≠ flagReg from hr]

/-! ### Stores -/

/-- In bounds, each byte stored at `I` and up is at its address. -/
theorem State.readByte_stored {s : State} {bs : List Byte} {k : Nat} (hwf : s.mem.wf = true)
    (h : s.indexed bs.length ≤ memSize) (hk : k < bs.length) :
    (s.writeBytes (s.indexed 0) bs).readByte (s.indexed k) = bs[k] :=
  State.readByte_writeBytes_inside (a := s.indexed 0) hwf h hk

/-- Settles O42: the digit at `I + k` is the one of the place `2 - k`. -/
theorem storeDigitsWritesThreeDigits : Obligations.StoreDigitsWritesThreeDigits := by
  refine fun x s => ⟨fun hwf h => ?_, fun h => (exec_ldB s x).trans (whenInBounds_outside s h)⟩
  have hrange : s.indexed (digits (s.reg x)).length ≤ memSize := Nat.succ_le_succ h
  have digit : ∀ k (hk : k < 3), ((s.writeBytes (s.indexed 0) (digits (s.reg x))).readByte (s.indexed k)).toNat =
      (s.reg x).toNat / 10 ^ (2 - k) % 10 := fun k hk => by
    have hidx : k < (digits (s.reg x)).length := hk
    rw [State.readByte_stored hwf hrange hidx, digits_getElem, digit_toNat]
  have h0 := digit 0 (by decide)
  have h1 := digit 1 (by decide)
  have h2 := digit 2 (by decide)
  refine ⟨_, (exec_ldB s x).trans (whenInBounds_inside s h), ?_, ?_, ?_, rfl,
    frame_writeBytes_advance s _ _ _ fun k hlo hhi => ⟨hlo, Nat.le_of_lt_succ hhi⟩⟩
  all_goals
    simp only [State.advance_readByte]
    omega

/-- In bounds, each register of a dump is at its address. -/
theorem State.readByte_dumped {s : State} {x k : Reg} (hwf : s.mem.wf = true) (h : s.indexed x.val ≤ 4095)
    (hk : k ≤ x) :
    (s.writeBytes (s.indexed 0) (s.regsTo x)).readByte (s.indexed k.val) = s.reg k := by
  have hlen := s.regsTo_length x
  have hrange : s.indexed (s.regsTo x).length ≤ memSize := hlen ▸ Nat.succ_le_succ h
  have hidx : k.val < (s.regsTo x).length := hlen ▸ Nat.lt_succ_of_le hk
  rw [State.readByte_stored hwf hrange hidx, State.regsTo_getElem, Fin.ofNat_val_eq_self]

/-- Settles O43: the byte stored at `I + k` is `V[k]`. -/
theorem dumpStoresTheRegisters : Obligations.DumpStoresTheRegisters := by
  refine fun x s => ⟨fun hwf h => ?_, fun h => (exec_dump s x).trans (whenInBounds_outside s h)⟩
  have hframe : Frame { mem := fun a => s.indexed 0 ≤ a ∧ a ≤ s.indexed x.val, index := true } s
      (s.writeBytes (s.indexed 0) (s.regsTo x)).advance :=
    frame_writeBytes_advance s _ _ _ fun k hlo hhi => ⟨hlo, by
      rw [State.regsTo_length] at hhi
      exact Nat.le_of_lt_succ hhi⟩
  exact ⟨_, (exec_dump s x).trans (whenInBounds_inside s h), fun k hk => State.readByte_dumped hwf h hk,
    State.indexPast_toNat h, rfl, frame_setI hframe rfl _⟩

/-- Settles O44: the register loaded from `I + k` is `V[k]`. -/
theorem loadFillsTheRegisters : Obligations.LoadFillsTheRegisters := by
  refine fun x s => ⟨fun h => ?_, fun h => (exec_load s x).trans (whenInBounds_outside s h)⟩
  exact ⟨_, (exec_load s x).trans (whenInBounds_inside s h), fun k hk => by simp [hk], State.indexPast_toNat h, by simp,
    frame_loadRegs_advance s x _⟩

/-- Settles O45: the load reads each register's address, where the dump put it. -/
theorem dumpThenLoadRoundTrips : Obligations.DumpThenLoadRoundTrips := by
  intro x s hwf h
  refine ⟨_, (exec_dump s x).trans (whenInBounds_inside s h), fun u hmem hi => ?_⟩
  have hidx : ∀ k, u.indexed k = s.indexed k := fun k => congrArg (·.toNat + k) hi
  refine ⟨_, (exec_load u x).trans (whenInBounds_inside u (by rwa [hidx])), fun k hk => ?_⟩
  calc (u.loadRegs x).reg k = u.readByte (u.indexed k.val) := (u.loadRegs_reg x k).trans (if_pos hk)
    _ = (s.writeBytes (s.indexed 0) (s.regsTo x)).readByte (s.indexed k.val) := by
      rw [hidx, State.readByte, hmem]
      rfl
    _ = s.reg k := State.readByte_dumped hwf h hk

/-! ### A store and the next fetch -/

/-- What memory holds after bytes are stored at `I`. -/
theorem State.readByte_writeBytes_eq_afterStore {s : State} {bs : List Byte} {n : Nat} {value : Nat → Byte}
    (hwf : s.mem.wf = true) (hn : bs.length = n) (hr : s.indexed n ≤ memSize)
    (hv : ∀ k (h : k < bs.length), bs[k] = value k) (a : Nat) :
    (s.writeBytes (s.indexed 0) bs).readByte a = afterStore s n value a := by
  subst hn
  have stored := State.readByte_writeBytes (a := s.indexed 0) hwf hr a
  rw [stored, afterStore]
  change _ = if s.indexed 0 ≤ a ∧ a < s.indexed 0 + bs.length then _ else _
  split
  · next hk =>
    have hidx : a - s.indexed 0 < bs.length := by omega
    rw [List.getD_eq_getElem _ _ hidx, hv]
  · rfl

/-- The fetch after an instruction that moved the pc by 2 and kept the policies. -/
theorem State.fetch_after {s t : State} (hpc : t.pc = s.pc + 2) (hp : t.params = s.params)
    (h : (s.pc + 2).toNat < s.params.fetchLimit.val) (byte : Nat → Byte) (hb : ∀ a, t.readByte a = byte a) :
    t.fetch = .ok (wordOfBytes (byte (s.pc + 2).toNat) (byte ((s.pc + 2).toNat + 1))) := by
  rw [t.fetch_inside (by rwa [hpc, hp]), hb, hb, hpc]

/-- Settles O46: the fetch reads memory as the store left it. -/
theorem storeIsSeenByTheNextFetch : Obligations.StoreIsSeenByTheNextFetch := by
  refine fun x s hwf hpc => ⟨fun h => ?_, fun h => ?_⟩
  · have stored := State.readByte_writeBytes_eq_afterStore (n := 3) hwf rfl (Nat.succ_le_succ h)
      (digits_getElem (s.reg x))
    exact ⟨_, (exec_ldB s x).trans (whenInBounds_inside s h),
      State.fetch_after (t := (s.writeBytes (s.indexed 0) (digits (s.reg x))).advance) rfl rfl hpc _ stored⟩
  · have stored := State.readByte_writeBytes_eq_afterStore hwf (s.regsTo_length x) (Nat.succ_le_succ h)
      (s.regsTo_getElem x)
    exact ⟨_, (exec_dump s x).trans (whenInBounds_inside s h),
      State.fetch_after (t := ((s.writeBytes (s.indexed 0) (s.regsTo x)).setI (s.indexPast x)).advance)
        rfl rfl hpc _ stored⟩

end Sys2Proof.Machine
end

/-! The display operations (spec/44_display.md): a sprite is the list of the cells its set bits cover, in the order
they are drawn, and no cell is in that list twice. -/

section
namespace Sys2Proof.Machine

open Sys2Proof.Claims

/-! ### Drawing a list of cells -/

/-- The pixels of these cells drawn one after the other. -/
def drawCells (cs : List Cell) (p : Display × Bool) : Display × Bool := cs.foldl (fun q c => drawPixel c q) p

/-- Distinct cells drawn: each is inverted, every other cell is kept (R162). -/
theorem cell_drawCells {cs : List Cell} (h : cs.Nodup) (p : Display × Bool) (c : Cell) :
    Display.cell (drawCells cs p).1 c = (Display.cell p.1 c ^^ decide (c ∈ cs)) := by
  induction cs generalizing p with
  | nil => simp [drawCells]
  | cons e cs ih =>
    obtain ⟨he, hcs⟩ := List.nodup_cons.1 h
    rw [drawCells, List.foldl_cons, ← drawCells, ih hcs, drawPixel_fst, Display.cell_flip]
    by_cases hc : c = e
    · subst hc
      simp [he]
    · simp [hc]

/-- Distinct cells drawn: the collision is noted when one of them was 1 (R162). -/
theorem collision_drawCells {cs : List Cell} (h : cs.Nodup) (p : Display × Bool) :
    (drawCells cs p).2 = (p.2 || cs.any (Display.cell p.1)) := by
  induction cs generalizing p with
  | nil => simp [drawCells]
  | cons e cs ih =>
    obtain ⟨he, hcs⟩ := List.nodup_cons.1 h
    have kept : cs.any (Display.cell (Display.flip p.1 e)) = cs.any (Display.cell p.1) := by
      rw [Bool.eq_iff_iff, List.any_eq_true, List.any_eq_true]
      refine exists_congr fun c => and_congr_right fun hc => ?_
      have hne : c ≠ e := fun h => he (h ▸ hc)
      simp [hne]
    rw [drawCells, List.foldl_cons, ← drawCells, ih hcs, drawPixel_fst, drawPixel_snd, kept, List.any_cons,
      Bool.or_assoc]

/-! ### The cells of a sprite -/

/-- The columns of the set bits of a sprite row, from the most significant bit on. -/
def setColumns (b : Byte) : List Nat := (List.range 8).filter fun col => b.getLsbD (7 - col)

/-- The target cells of one sprite row. -/
def rowCells (x y row : Nat) (b : Byte) : List Cell := (setColumns b).map (cellIndex x y row)

/-- The target cells of the sprite's rows from `row` on. -/
def spriteCells (x y : Nat) : Nat → List Byte → List Cell
  | _, [] => []
  | row, b :: bs => rowCells x y row b ++ spriteCells x y (row + 1) bs

theorem drawRow_eq (x y row : Nat) (b : Byte) (p : Display × Bool) :
    drawRow x y row b p = drawCells (rowCells x y row b) p := by
  rw [drawCells, rowCells, setColumns, List.foldl_map, List.foldl_filter, drawRow]

theorem drawRows_eq (x y row : Nat) (bs : List Byte) (p : Display × Bool) :
    drawRows x y row bs p = drawCells (spriteCells x y row bs) p := by
  induction bs generalizing row p with
  | nil => rfl
  | cons b bs ih => rw [drawRows, ih, drawRow_eq, spriteCells, drawCells, drawCells, drawCells, List.foldl_append]

theorem mem_rowCells {x y row : Nat} {b : Byte} {c : Cell} :
    c ∈ rowCells x y row b ↔ ∃ col < 8, b.getLsbD (7 - col) = true ∧ cellIndex x y row col = c := by
  simp [rowCells, setColumns, and_assoc]

/-- The cells of a sprite, by its set bits (R161). -/
theorem mem_spriteCells {x y row : Nat} {bs : List Byte} {c : Cell} :
    c ∈ spriteCells x y row bs ↔
      ∃ k, ∃ h : k < bs.length, ∃ col < 8, bs[k].getLsbD (7 - col) = true ∧ cellIndex x y (row + k) col = c := by
  induction bs generalizing row with
  | nil => simp [spriteCells]
  | cons b bs ih =>
    rw [spriteCells, List.mem_append, mem_rowCells, ih]
    constructor
    · rintro (⟨col, hcol, hbit, hc⟩ | ⟨k, hk, col, hcol, hbit, hc⟩)
      · exact ⟨0, Nat.succ_pos _, col, hcol, hbit, hc⟩
      · exact ⟨k + 1, Nat.succ_lt_succ hk, col, hcol, hbit, by rw [← hc, Nat.add_assoc, Nat.add_comm 1]⟩
    · rintro ⟨_ | k, hk, col, hcol, hbit, hc⟩
      · exact .inl ⟨col, hcol, hbit, hc⟩
      · exact .inr ⟨k, Nat.lt_of_succ_lt_succ hk, col, hcol, hbit, by rw [← hc, Nat.add_assoc, Nat.add_comm 1]⟩

/-- Within 32 rows of 8 columns two pixels have two target cells: the reduction modulo the buffer size meets no cell
twice (R161, C10). -/
theorem cellIndex_inj {x y row row' col col' : Nat} (hr : row < 32) (hr' : row' < 32) (hc : col < 8) (hc' : col' < 8)
    (h : cellIndex x y row col = cellIndex x y row' col') : row = row' ∧ col = col' := by
  have hv := congrArg Fin.val h
  rw [cellIndex_val, cellIndex_val] at hv
  omega

theorem nodup_rowCells {x y row : Nat} (b : Byte) (hr : row < 32) : (rowCells x y row b).Nodup := by
  refine List.Nodup.map_on (fun col hcol col' hcol' h => ?_) (List.nodup_range.filter _)
  have lt : ∀ {k}, k ∈ setColumns b → k < 8 := fun hk => List.mem_range.1 (List.mem_filter.1 hk).1
  exact (cellIndex_inj hr hr (lt hcol) (lt hcol') h).2

theorem nodup_spriteCells {x y row : Nat} {bs : List Byte} (h : row + bs.length ≤ 32) :
    (spriteCells x y row bs).Nodup := by
  induction bs generalizing row with
  | nil => exact List.nodup_nil
  | cons b bs ih =>
    rw [List.length_cons] at h
    refine List.Nodup.append (nodup_rowCells b (by omega)) (ih (by omega)) fun c hc hc' => ?_
    obtain ⟨col, hcol, -, hrow⟩ := mem_rowCells.1 hc
    obtain ⟨k, hk, col', hcol', -, hrow'⟩ := mem_spriteCells.1 hc'
    have := (cellIndex_inj (by omega) (by omega) hcol hcol' (hrow.trans hrow'.symm)).1
    omega

/-! ### Drawing a sprite -/

section
variable {s : State} {x y : Reg} {n : Nat}

/-- The cells of the sprite of `n` rows at `I`. -/
def State.coveredCells (s : State) (x y : Reg) (n : Nat) : List Cell :=
  spriteCells (s.reg x).toNat (s.reg y).toNat 0 (s.readBytes (s.indexed 0) n)

theorem readBytes_length (s : State) (a n : Nat) : (s.readBytes a n).length = n := by
  simp [State.readBytes]

theorem readBytes_getElem (s : State) (a n k : Nat) (h : k < (s.readBytes a n).length) :
    (s.readBytes a n)[k] = s.readByte (a + k) := by
  simp [State.readBytes]

theorem nodup_coveredCells (h : n < 16) : (s.coveredCells x y n).Nodup :=
  nodup_spriteCells (by rw [readBytes_length]; omega)

theorem mem_coveredCells {c : Cell} : c ∈ s.coveredCells x y n ↔ Covers s x y n c := by
  rw [State.coveredCells, mem_spriteCells]
  constructor
  · rintro ⟨row, hrow, col, hcol, hbit, rfl⟩
    rw [readBytes_getElem] at hbit
    rw [readBytes_length] at hrow
    refine ⟨row, col, hrow, hcol, hbit, ?_⟩
    rw [cellIndex_val, Nat.zero_add]
  · rintro ⟨row, col, hrow, hcol, hbit, hc⟩
    refine ⟨row, by rwa [readBytes_length], col, hcol, by rwa [readBytes_getElem], Fin.ext ?_⟩
    rw [cellIndex_val, Nat.zero_add, hc]

/-- The state after a draw: the covered cells drawn, the collision in the flag register (R162). -/
theorem drawSprite_eq :
    s.drawSprite x y (s.readBytes (s.indexed 0) n) =
      (s.setFlag (drawCells (s.coveredCells x y n) (s.disp, false)).2).redrawWith
        (drawCells (s.coveredCells x y n) (s.disp, false)).1 := by
  rw [State.drawSprite, drawRows_eq]
  rfl

end

/-- What a draw in bounds leaves (R161, R162). -/
structure Drawn (s : State) (x y : Reg) (n : Nat) (t : State) : Prop where
  cell : ∀ c, Display.cell t.disp c = (Display.cell s.disp c ^^ decide (c ∈ s.coveredCells x y n))
  flag : t.reg flagReg = flagByte ((s.coveredCells x y n).any (Display.cell s.disp))
  redraw : t.redraw = true
  pc : t.pc = s.pc + 2
  frame : Frame { regs := fun r => r = flagReg, display := true } s t

theorem exec_drw_drawn {s : State} {n : Nat} (x y : Reg) (hn : n < 16) (h : n = 0 ∨ s.indexed (n - 1) ≤ 4095) :
    ∃ t, exec (.drw x y n) s = .next t ∧ Drawn s x y n t := by
  refine ⟨_, (exec_drw_inside s x y h).trans (by rw [drawSprite_eq]; rfl), ?_⟩
  have nodup := nodup_coveredCells (s := s) (x := x) (y := y) hn
  refine ⟨fun c => cell_drawCells nodup (s.disp, false) c, ?_, rfl, rfl, fun r hr => ?_, by simp⟩
  · simp [collision_drawCells nodup]
  · simp [show r ≠ flagReg from hr]

section
variable {s t : State} {x y : Reg} {n : Nat}

theorem Drawn.cell_covered (h : Drawn s x y n t) {c : Cell} (hc : Covers s x y n c) :
    Display.cell t.disp c = !Display.cell s.disp c := by
  rw [h.cell, decide_eq_true (mem_coveredCells.2 hc), Bool.xor_true]

theorem Drawn.cell_kept (h : Drawn s x y n t) {c : Cell} (hc : ¬ Covers s x y n c) :
    Display.cell t.disp c = Display.cell s.disp c := by
  rw [h.cell, decide_eq_false (mt mem_coveredCells.1 hc), Bool.xor_false]

theorem Drawn.flag_one (h : Drawn s x y n t) {c : Cell} (hc : Covers s x y n c) (h1 : Display.cell s.disp c = true) :
    t.reg flagReg = 1 := by
  rw [h.flag, List.any_eq_true.2 ⟨c, mem_coveredCells.2 hc, h1⟩]
  rfl

theorem Drawn.flag_zero (h : Drawn s x y n t) (h0 : ∀ c, Covers s x y n c → Display.cell s.disp c = false) :
    t.reg flagReg = 0 := by
  have none : (s.coveredCells x y n).any (Display.cell s.disp) = false :=
    List.any_eq_false.2 fun c hc => by simp [h0 c (mem_coveredCells.1 hc)]
  rw [h.flag, none]
  rfl

/-- A draw leaves what the sprite is read from, so it covers the same cells again. -/
theorem Drawn.covers_iff (h : Drawn s x y n t) (hx : x ≠ flagReg) (hy : y ≠ flagReg) (c : Cell) :
    Covers t x y n c ↔ Covers s x y n c := by
  obtain ⟨hregs, hmem, hi, -⟩ := h.frame
  simp only [Covers, hregs x hx, hregs y hy, hi rfl, fun a => hmem a id]

end

/-! ### The statements -/

/-- Settles O47: every cell of the clear buffer is 0. -/
theorem clearScreenZeroesEveryCell : Obligations.ClearScreenZeroesEveryCell := fun s =>
  ⟨_, exec_cls s, fun c => Display.cell_clear c, rfl, rfl, by simp [Frame]⟩

/-- Settles O48: the cells a draw XORs are those the sprite covers. -/
theorem drawSpriteXorsTheCoveredCells : Obligations.DrawSpriteXorsTheCoveredCells := by
  refine fun x y n s hn => ⟨fun h => ?_, fun h0 h => exec_drw_outside s x y h0 h⟩
  obtain ⟨t, ht, hd⟩ := exec_drw_drawn x y hn h
  exact ⟨t, ht, fun _ hc => hd.cell_covered hc, fun _ hc => hd.cell_kept hc, fun ⟨_, hc, h1⟩ => hd.flag_one hc h1,
    hd.flag_zero, hd.redraw, hd.pc, hd.frame⟩

/-- Settles O49: the second draw covers the cells of the first, and finds them inverted. -/
theorem drawingTwiceRestoresTheDisplay : Obligations.DrawingTwiceRestoresTheDisplay := by
  intro x y n s hn h hx hy
  obtain ⟨t, ht, hd⟩ := exec_drw_drawn x y hn h
  obtain ⟨-, -, hi, -⟩ := hd.frame
  have h' : n = 0 ∨ t.indexed (n - 1) ≤ 4095 := by rwa [State.indexed, hi rfl]
  obtain ⟨u, hu, hd'⟩ := exec_drw_drawn x y hn h'
  have covers := hd.covers_iff hx hy
  refine ⟨t, u, ht, hu, Display.ext_cell fun c => ?_, fun clear => ⟨hd.flag_zero fun c _ => clear c, ?_, ?_⟩⟩
  · by_cases hc : Covers s x y n c
    · rw [hd'.cell_covered ((covers c).2 hc), hd.cell_covered hc, Bool.not_not]
    · rw [hd'.cell_kept (mt (covers c).1 hc), hd.cell_kept hc]
  · intro h1
    by_contra hnone
    have h0 := hd'.flag_zero fun c hc => absurd ⟨c, (covers c).1 hc⟩ hnone
    rw [h1] at h0
    exact absurd h0 (by decide)
  · rintro ⟨c, hc⟩
    have inverted : Display.cell t.disp c = true := by rw [hd.cell_covered hc, clear c, Bool.not_false]
    exact hd'.flag_one ((covers c).2 hc) inverted

end Sys2Proof.Machine
end

/-! Keys, timers and random numbers (spec/45_keys_timers_random.md). -/

section
namespace Sys2Proof.Machine

open Sys2Proof.Claims

/-! ### Keys -/

theorem keyByte_toNat (k : Key) : (keyByte k).toNat = k.val := by
  rw [keyByte, BitVec.toNat_ofNat]
  omega

/-- A key skip whose register names a key tests that key. -/
theorem skipOnKey_advances_and_frames (s : State) (down : Bool) (x : Reg) (i : Instr) (k : Key)
    (h : (s.reg x).toNat = k.val) :
    ∃ t, skipOnKey down x i s = .next t ∧
      t.pc = (if s.key[k.val] = down then s.pc + 4 else s.pc + 2) ∧ Frame {} s t := by
  have hlt : (s.reg x).toNat < 16 := h ▸ k.isLt
  have key : s.key[(s.reg x).toNat] = s.key[k.val] := getElem_congr_idx h
  rw [skipOnKey_named s down x i hlt, key]
  exact skipIf_advances_and_frames s beq_iff_eq

/-- Settles O50: both are the one key skip, for a key that is down and for one that is up. -/
theorem keySkipsTestTheNamedKey : Obligations.KeySkipsTestTheNamedKey := by
  intro x s
  rw [exec_skp, exec_sknp]
  exact ⟨fun k hk => ⟨skipOnKey_advances_and_frames s true x _ k hk, skipOnKey_advances_and_frames s false x _ k hk⟩,
    fun h => ⟨skipOnKey_unnamed s true x _ (Nat.not_lt.2 h), skipOnKey_unnamed s false x _ (Nat.not_lt.2 h)⟩⟩

/-- A register written with a count of free values, and the default advance. -/
theorem frame_draws_setReg_advance (s : State) (x : Reg) (b : Byte) (n : Nat) :
    Frame { regs := fun r => r = x, draws := true } s (({ s with draws := n }).setReg x b).advance := by
  refine ⟨fun r hr => ?_, by simp [State.readByte]⟩
  simp only [State.advance_reg, State.setReg_reg, if_neg hr]
  rfl

/-- Settles O51: no key is listed exactly when none is down. -/
theorem waitForKeyStallsOrTakesADownKey : Obligations.WaitForKeyStallsOrTakesADownKey := by
  refine fun x s => ⟨fun up => exec_ldVxK_stalled s x ?_, fun ⟨k, hk⟩ => ?_⟩
  · refine List.eq_nil_iff_forall_not_mem.2 fun k hk => ?_
    rw [s.mem_downKeys, up k] at hk
    cases hk
  · have listed : s.downKeys ≠ [] := List.ne_nil_of_mem ((s.mem_downKeys k).2 hk)
    obtain ⟨k', n, hdown, hexec⟩ := exec_ldVxK_taken s x listed
    refine ⟨_, k', hexec, hdown, ?_, rfl, frame_draws_setReg_advance s x _ n⟩
    simpa using keyByte_toNat k'

/-! ### Timers -/

theorem frame_setDt_advance (s : State) (b : Byte) : Frame { delay := true } s (s.setDt b).advance := by
  simp [Frame]

theorem frame_setSt_advance (s : State) (b : Byte) : Frame { sound := true } s (s.setSt b).advance := by
  simp [Frame]

/-- Settles O52: each is one write, completed. -/
theorem timerMovesCopy : Obligations.TimerMovesCopy := fun x s =>
  ⟨exec_ldVxDt s x ▸ complete_setReg_writes_and_frames s x s.dt,
    ⟨_, exec_ldDtVx s x, rfl, rfl, frame_setDt_advance s _⟩,
    ⟨_, exec_ldStVx s x, rfl, rfl, frame_setSt_advance s _⟩⟩

/-- The whole step of an instruction that raises no violation, by the state its operation leaves. -/
theorem step_of_encode {s u : State} {i : Instr} (hs : s.fault = none) (hi : i.WellFormed)
    (hf : s.fetch = .ok (encode i)) (he : exec i s = .next u) :
    step s = .next (finishExecuted s (encode i) u) := step_of_exec hs hf (decodeWord_encode i hi) he

theorem finishStep_reg (s t : State) (w : Option Word) (c : Option Condition) (x : Reg) :
    (finishStep s w c t).reg x = t.reg x := by
  simp only [State.reg, finishStep_v]

/-- Settles O53: the timers at the end of the step are those the operation left, ticked once under PER_STEP. -/
theorem timerStepsTickAfterTheMove : Obligations.TimerStepsTickAfterTheMove := by
  refine fun x s hs => ⟨fun hf => ?_, fun hf => ?_, fun hf => ?_⟩
  · refine ⟨_, step_of_encode hs rfl hf (exec_ldVxDt s x), (finishStep_reg ..).trans (by simp), finishStep_pc ..,
      fun hm => ?_, fun hm => (finishStep_timers_external _ _ (u := (s.setReg x s.dt).advance) hm).1⟩
    rw [finishExecuted, (finishStep_timers_perStep _ _ (u := (s.setReg x s.dt).advance) hs hm).1]
    exact lowered_toNat s.dt
  · refine ⟨_, step_of_encode hs rfl hf (exec_ldDtVx s x), finishStep_pc .., fun hm => ?_, fun hm =>
      (finishStep_timers_external _ _ (u := (s.setDt (s.reg x)).advance) hm).1⟩
    rw [finishExecuted, (finishStep_timers_perStep _ _ (u := (s.setDt (s.reg x)).advance) hs hm).1]
    exact lowered_toNat (s.reg x)
  · have ticked : s.params.tickMode = .perStep →
        (finishExecuted s (encode (.ldStVx x)) (s.setSt (s.reg x)).advance).st =
          tickedSt s.params.soundPolicy (s.reg x) := fun hm =>
      (finishStep_timers_perStep _ _ (u := (s.setSt (s.reg x)).advance) hs hm).2
    refine ⟨_, step_of_encode hs rfl hf (exec_ldStVx s x), finishStep_pc .., fun hm hp => ?_, fun hm hp => ?_,
      fun hm => (finishStep_timers_external _ _ (u := (s.setSt (s.reg x)).advance) hm).2⟩
    · rw [ticked hm, hp]
      rfl
    · rw [ticked hm, hp]
      exact lowered_toNat (s.reg x)

/-! ### Random numbers -/

/-- Settles O54: by the mask source. -/
theorem randomAndMaskTakesAFreshMaskedByte : Obligations.RandomAndMaskTakesAFreshMaskedByte := by
  intro x nn s
  have hreg : (s.takeDraw.setReg x (Config.freeByte s.draws &&& s.randomMask nn)).advance.reg x =
      Config.freeByte s.draws &&& s.randomMask nn := by simp
  refine ⟨_, exec_rnd s x nn, fun hm => ?_, fun hm => ?_, rfl, rfl, frame_draws_setReg_advance s x _ _⟩
  · have mask : s.randomMask nn = nn := by rw [State.randomMask, hm]
    rw [mask] at hreg ⊢
    refine ⟨hreg, fun h0 => ?_⟩
    rw [hreg, h0]
    exact BitVec.and_zero
  · have mask : s.randomMask nn = Config.randFixedMask := by rw [State.randomMask, hm]
    rw [mask] at hreg ⊢
    exact hreg

end Sys2Proof.Machine
end

/-! The host's moves (spec/70_reset_and_hazards.md) and the self-jump that ends a program. -/

section
namespace Sys2Proof.Machine

open Sys2Proof.Claims

/-- Settles O55: an address of the empty memory reads as the font table below 80, else as 0. -/
theorem resetLeavesTheStatedState : Obligations.ResetLeavesTheStatedState := by
  refine ⟨fun r => ?_, rfl, rfl, fun k => ?_, rfl, fun a ha => ?_, fun a ha _ => ?_, rfl, rfl,
    fun c => Display.cell_clear c, fun k => ?_, rfl, rfl⟩
  · simp [State.reset, State.reg]
  · simp [State.reset]
  · exact if_pos ha
  · exact if_neg (Nat.not_lt.2 ha)
  · simp [State.reset]

/-- Settles O56: the event reads the policies and the count of free values alone. -/
theorem resetEventIsFreshAndIdempotent : Obligations.ResetEventIsFreshAndIdempotent := by
  refine fun s => ⟨⟨_, rfl, rfl, rfl⟩, fun s' hp hd => ?_⟩
  simp only [hostEvent_reset_eq, State.resetEvent, hp, hd]

/-! ### Loading -/

theorem loadEvent_fits (s : State) {bytes : List Byte} (h : bytes.length ≤ 3584) :
    s.loadEvent bytes = { s.writeBytes entry bytes with report := none } := by
  rw [State.loadEvent, if_neg (by simp only [entry, memSize]; omega)]

theorem loadEvent_tooLong (s : State) {bytes : List Byte} (h : 3584 < bytes.length) :
    s.loadEvent bytes = { s with report := some (.capacityExceeded bytes.length) } := by
  rw [State.loadEvent, if_pos (by simp only [entry, memSize]; omega)]

/-- The bytes of a load that fits are in memory from the entry on. -/
theorem readByte_loaded {s : State} {bytes : List Byte} (hwf : s.mem.wf = true) (h : bytes.length ≤ 3584)
    {j : Nat} {b : Byte} (hj : bytes[j]? = some b) : (s.writeBytes entry bytes).readByte (0x200 + j) = b := by
  obtain ⟨hlt, rfl⟩ := List.getElem?_eq_some_iff.1 hj
  exact State.readByte_writeBytes_inside (a := entry) hwf (by simp only [entry, memSize]; omega) hlt

/-- Settles O57: by the length, at most 3584 or more. -/
theorem loadCopiesTheRomOrChangesNothing : Obligations.LoadCopiesTheRomOrChangesNothing := by
  refine fun s bytes => ⟨fun hwf h => ⟨_, congrArg some (loadEvent_fits s h), ?_, ?_, rfl⟩,
    fun h => congrArg some (loadEvent_tooLong s h), rfl⟩
  · exact fun j b hj => readByte_loaded hwf h hj
  · exact fun a ha => s.readByte_writeBytes_outside bytes ha

/-! ### The other events -/

/-- Settles O58: the tick event by the mode and the latch. -/
theorem hostEventsChangeOnlyTheirOwnState : Obligations.HostEventsChangeOnlyTheirOwnState := by
  refine fun s => ⟨fun k down => ⟨_, rfl, fun j => ?_, rfl⟩, hostEvent_tick_perStep, fun hm hf => ?_, fun hm hf => ?_,
    rfl⟩
  · simp only [Vector.getElem_set, Fin.ext_iff, eq_comm]
  · have running : ¬ s.faulted = true := by simp [State.faulted, hf]
    rw [hostEvent_tick_external hm, State.tickEvent, if_neg running]
  · have latched : s.faulted = true := Option.isSome_iff_ne_none.2 hf
    rw [hostEvent_tick_external hm, State.tickEvent, if_pos latched]

/-! ### The boot order -/

/-- The last setting of a key is the first that names it from the end. -/
theorem find?_reverse_of_last {before later : List (Key × Bool)} {k : Key} {down : Bool}
    (h : ∀ e ∈ later, e.1 ≠ k) :
    ((before ++ (k, down) :: later).reverse.find? fun e => e.1 = k) = some (k, down) := by
  have none : (later.reverse.find? fun e => e.1 = k) = none :=
    List.find?_eq_none.2 fun e he => by simpa using h e (List.mem_reverse.1 he)
  rw [List.reverse_append, List.reverse_cons, List.append_assoc, List.find?_append, none]
  simp

/-- The state after a reset and a load that fits. -/
def State.booted (s : State) (rom : List Byte) : State :=
  { s.resetEvent.writeBytes entry rom with report := none }

/-- The boot order leaves the booted state with the key states as last set. -/
theorem runMoves_bootMoves (s : State) {rom : List Byte} (keys : List (Key × Bool)) (h : rom.length ≤ 3584) :
    ∃ key, runMoves (bootMoves rom keys) s = some { s.booted rom with key := key } ∧
      ∀ k : Key, key[k.val] = ((keys.reverse.find? fun e => e.1 = k).map Prod.snd).getD false := by
  obtain ⟨key, hrun, hkey⟩ := runMoves_setKeys keys (s.booted rom)
  refine ⟨key, ?_, fun k => ?_⟩
  · rw [State.booted, ← loadEvent_fits _ h] at hrun
    rw [State.booted, ← loadEvent_fits _ h, ← hrun]
    rfl
  · have up : (s.booted rom).key[k.val] = false := by simp [State.booted, State.resetEvent, State.reset]
    rw [hkey k, up]

/-- Settles O59: the load and the key settings run on the reset state, and none of them moves the pc. -/
theorem bootOrderReachesTheFirstInstruction : Obligations.BootOrderReachesTheFirstInstruction := by
  intro s hi lo rest keys hlen hlimit
  have hfits : (hi :: lo :: rest).length ≤ 3584 := Nat.add_le_add_right hlen 2
  have loaded : ∀ j b, (hi :: lo :: rest)[j]? = some b → (s.booted (hi :: lo :: rest)).readByte (0x200 + j) = b :=
    fun j b hj => readByte_loaded (s := s.resetEvent) State.reset_wf hfits hj
  obtain ⟨key, hrun, hkey⟩ := runMoves_bootMoves s keys hfits
  refine ⟨_, hrun, rfl, rfl, rfl, rfl, rfl, rfl, fun r => ?_, loaded, fun k down before later hkeys hlater => ?_,
    fun k hk => ?_, ?_⟩
  · simp [State.booted, State.resetEvent, State.reset, State.reg]
  · subst hkeys
    rw [hkey k, find?_reverse_of_last hlater]
    rfl
  · have unnamed : (keys.reverse.find? fun e => e.1 = k) = none :=
      List.find?_eq_none.2 fun e he => by simpa using hk e (List.mem_reverse.1 he)
    rw [hkey k, unnamed]
    rfl
  · have first := State.fetch_inside { s.booted (hi :: lo :: rest) with key := key } hlimit
    rw [first]
    exact congrArg Except.ok (congrArg₂ wordOfBytes (loaded 0 hi rfl) (loaded 1 lo rfl))

/-! ### The self-jump -/

theorem tick_of_silent {s : State} (hdt : s.dt = 0) (hst : s.st = 0) : s.tick = s := by
  have st : tickedSt s.params.soundPolicy s.st = s.st := by
    rw [hst]
    cases s.params.soundPolicy <;> rfl
  have dt : lowered s.dt = s.dt := by
    rw [hdt]
    rfl
  rw [State.tick, dt, st]

/-- Settles O60: the jump leads to its own address, and a tick leaves a timer that is 0 at 0. -/
theorem selfJumpIsAFixedPoint : Obligations.SelfJumpIsAFixedPoint := by
  rintro s ⟨hs, hdt, hst, nnn, hpc, hfetch⟩
  have jump : exec (.jp nnn) s = .next s := by
    rw [exec_jp, ← hpc]
    rfl
  have silent : s.tickAfterStep = s := by
    rcases s.tickAfterStep_cases with h | ⟨-, h⟩
    · exact h
    · rw [h, tick_of_silent hdt hst]
  have ended : finishExecuted s (encode (.jp nnn)) s =
      { s with report := none, trace := some (s.record (some (encode (.jp nnn)))) } := by
    rw [finishExecuted, finishStep, silent, show s.fault = none from hs]
    rfl
  refine ⟨_, (step_of_encode hs rfl hfetch jump).trans (congrArg _ ended), rfl, hs, hdt, hst, nnn, hpc, hfetch⟩

end Sys2Proof.Machine
end
